-- ==== Sys2Proof/Word.lean ====
section
/-! DEFINITION. The word types of the CORE block: the widths spec/00_scope.md rules R5 and R7 give. -/

namespace Sys2Proof

/-- A byte, 8 bits (R7): a general register, a memory byte, an immediate `k`, a timer. -/
abbrev Byte := BitVec 8

/-- A word, 16 bits (R7): an instruction word, PC, I, a return address. -/
abbrev Word := BitVec 16

/-- A nibble, 4 bits (R71): the fields `op`, `x`, `y`, `n`; as a register index it names V0 to VF. -/
abbrev Nibble := BitVec 4

/-- The 12-bit address field `addr` (R71). -/
abbrev Addr := BitVec 12

/-- The keypad vector K, 16 bits: bit k is 1 while virtual key k is pressed (R35, R253). -/
abbrev Keypad := BitVec 16

end Sys2Proof
end

