-- ==== Sys2Proof/Syntax.lean ====
section
/-! DEFINITION. The 34 instructions (spec/30_encoding.md R74, R78), one constructor per row of
spec/opcode_table.json, in the table's order. Every operand has exactly the width of its field (R71, R72), so every
term is a well-formed instruction. -/

namespace Sys2Proof

/-- An instruction with its operands. The pattern in each docstring is the word's hexadecimal form (R95). -/
inductive Instr where
  /-- 00E0, R190. -/
  | cls
  /-- 00EE, R101. -/
  | ret
  /-- 1nnn, R102. -/
  | jp (addr : Addr)
  /-- 2nnn, R103. -/
  | call (addr : Addr)
  /-- 3xkk, R104. -/
  | seK (x : Nibble) (k : Byte)
  /-- 4xkk, R106. -/
  | sneK (x : Nibble) (k : Byte)
  /-- 5xy0, R108. -/
  | seV (x y : Nibble)
  /-- 6xkk, R130. -/
  | ldK (x : Nibble) (k : Byte)
  /-- 7xkk, R132. -/
  | addK (x : Nibble) (k : Byte)
  /-- 8xy0, R141. -/
  | ldV (x y : Nibble)
  /-- 8xy1, R142. -/
  | or (x y : Nibble)
  /-- 8xy2, R143. -/
  | and (x y : Nibble)
  /-- 8xy3, R144. -/
  | xor (x y : Nibble)
  /-- 8xy4, R145. -/
  | addV (x y : Nibble)
  /-- 8xy5, R146. -/
  | sub (x y : Nibble)
  /-- 8xy6, R147. -/
  | shr (x y : Nibble)
  /-- 8xy7, R148. -/
  | subn (x y : Nibble)
  /-- 8xyE, R149. -/
  | shl (x y : Nibble)
  /-- 9xy0, R110. -/
  | sneV (x y : Nibble)
  /-- Annn, R170. -/
  | ldI (addr : Addr)
  /-- Bnnn, R112. -/
  | jpV0 (addr : Addr)
  /-- Cxkk, R210. -/
  | rnd (x : Nibble) (k : Byte)
  /-- Dxyn, R191. -/
  | drw (x y n : Nibble)
  /-- Ex9E, R212. -/
  | skp (x : Nibble)
  /-- ExA1, R214. -/
  | sknp (x : Nibble)
  /-- Fx07, R216. -/
  | ldVDt (x : Nibble)
  /-- Fx0A, R220. -/
  | ldVK (x : Nibble)
  /-- Fx15, R226. -/
  | ldDtV (x : Nibble)
  /-- Fx18, R228. -/
  | ldStV (x : Nibble)
  /-- Fx1E, R172. -/
  | addI (x : Nibble)
  /-- Fx29, R174. -/
  | ldF (x : Nibble)
  /-- Fx33, R176. -/
  | ldB (x : Nibble)
  /-- Fx55, R178. -/
  | stRegs (x : Nibble)
  /-- Fx65, R180. -/
  | ldRegs (x : Nibble)
  deriving DecidableEq, Repr

end Sys2Proof
end

