-- ==== Sys2Proof/Decode.lean ====
section
/-! DEFINITION. The decoder (spec/30_encoding.md R71 to R79), total on any bytes, and after it the encoder, written
from the formats of R73 and the encodings of each instruction's rule. -/

namespace Sys2Proof

/-- `op = w[15:12]` (R71). -/
def opOf (w : Word) : Nibble := w.extractLsb' 12 4

/-- `x = w[11:8]` (R71). -/
def xOf (w : Word) : Nibble := w.extractLsb' 8 4

/-- `y = w[7:4]` (R71). -/
def yOf (w : Word) : Nibble := w.extractLsb' 4 4

/-- `n = w[3:0]` (R71). -/
def nOf (w : Word) : Nibble := w.extractLsb' 0 4

/-- `k = w[7:0]` (R71). -/
def kOf (w : Word) : Byte := w.extractLsb' 0 8

/-- `addr = w[11:0]` (R71). -/
def addrOf (w : Word) : Addr := w.extractLsb' 0 12

/-- The op 0x8 row of `Decode` (R74): the sub-operation is n. -/
def decodeAlu (x y n : Nibble) : Option Instr :=
  match n.toNat with
  | 0x0 => some (.ldV x y)
  | 0x1 => some (.or x y)
  | 0x2 => some (.and x y)
  | 0x3 => some (.xor x y)
  | 0x4 => some (.addV x y)
  | 0x5 => some (.sub x y)
  | 0x6 => some (.shr x y)
  | 0x7 => some (.subn x y)
  | 0xE => some (.shl x y)
  | _ => none

/-- The op 0xE row of `Decode` (R74): the sub-operation is k. -/
def decodeKey (x : Nibble) (k : Byte) : Option Instr :=
  match k.toNat with
  | 0x9E => some (.skp x)
  | 0xA1 => some (.sknp x)
  | _ => none

/-- The op 0xF row of `Decode` (R74): the sub-operation is k. -/
def decodeMisc (x : Nibble) (k : Byte) : Option Instr :=
  match k.toNat with
  | 0x07 => some (.ldVDt x)
  | 0x0A => some (.ldVK x)
  | 0x15 => some (.ldDtV x)
  | 0x18 => some (.ldStV x)
  | 0x1E => some (.addI x)
  | 0x29 => some (.ldF x)
  | 0x33 => some (.ldB x)
  | 0x55 => some (.stRegs x)
  | 0x65 => some (.ldRegs x)
  | _ => none

/-- `Decode(w)` (R74): an instruction with its fields, or `none` for Invalid. It reads no state. -/
def decodeWord (w : Word) : Option Instr :=
  match (opOf w).toNat with
  | 0x0 => if w = 0x00E0#16 then some .cls else if w = 0x00EE#16 then some .ret else none
  | 0x1 => some (.jp (addrOf w))
  | 0x2 => some (.call (addrOf w))
  | 0x3 => some (.seK (xOf w) (kOf w))
  | 0x4 => some (.sneK (xOf w) (kOf w))
  | 0x5 => if nOf w = 0 then some (.seV (xOf w) (yOf w)) else none
  | 0x6 => some (.ldK (xOf w) (kOf w))
  | 0x7 => some (.addK (xOf w) (kOf w))
  | 0x8 => decodeAlu (xOf w) (yOf w) (nOf w)
  | 0x9 => if nOf w = 0 then some (.sneV (xOf w) (yOf w)) else none
  | 0xA => some (.ldI (addrOf w))
  | 0xB => some (.jpV0 (addrOf w))
  | 0xC => some (.rnd (xOf w) (kOf w))
  | 0xD => some (.drw (xOf w) (yOf w) (nOf w))
  | 0xE => decodeKey (xOf w) (kOf w)
  | 0xF => decodeMisc (xOf w) (kOf w)
  | _ => none

/-- The word two bytes form, big-endian: the byte at the lower address is bits 15-8 (R56, R90). -/
def wordOfBytes (hi lo : Byte) : Word := hi ++ lo

/-- The byte of a word that stands at the lower address, bits 15-8 (R56). -/
def hiByte (w : Word) : Byte := w.extractLsb' 8 8

/-- The byte of a word that stands at the higher address, bits 7-0 (R56). -/
def loByte (w : Word) : Byte := w.extractLsb' 0 8

/-- The two bytes of a word in the order memory holds them (R56). -/
def bytesOfWord (w : Word) : List Byte := [hiByte w, loByte w]

/-- The decoder on bytes: it consumes exactly two (R70) and answers the instruction with the bytes that follow;
`none` where fewer than two bytes stand or the word is Invalid. -/
def decodeBytes : List Byte → Option (Instr × List Byte)
  | hi :: lo :: rest => (decodeWord (wordOfBytes hi lo)).map fun i => (i, rest)
  | _ => none

/-- The word of an opcode-table row: `nbits` bits of `w`, every bit above them 0. -/
def tableWord (nbits w : Nat) : Word := BitVec.ofNat 16 (w % 2 ^ nbits)

/-- The instruction the decoder reads from the word `w`, numbered as spec/opcode_table.json numbers its bits,
laid out in memory order and given to the decoder on bytes. -/
def decodeTableWord (nbits w : Nat) : Option Instr :=
  (decodeBytes (bytesOfWord (tableWord nbits w))).map Prod.fst

/-- Format NNN (R73): op[15:12] addr[11:0]. -/
def fmtNNN (op : Nibble) (addr : Addr) : Word := op ++ addr

/-- Formats XKK and XK (R73): op[15:12] x[11:8] k[7:0]. -/
def fmtXKK (op x : Nibble) (k : Byte) : Word := op ++ (x ++ k)

/-- Format XYN (R73): op[15:12] x[11:8] y[7:4] n[3:0]. -/
def fmtXYN (op x y n : Nibble) : Word := op ++ (x ++ (y ++ n))

/-- The word of an instruction, from the "Encoding" line of its rule. -/
def encode : Instr → Word
  | .cls => 0x00E0#16
  | .ret => 0x00EE#16
  | .jp addr => fmtNNN 0x1#4 addr
  | .call addr => fmtNNN 0x2#4 addr
  | .seK x k => fmtXKK 0x3#4 x k
  | .sneK x k => fmtXKK 0x4#4 x k
  | .seV x y => fmtXYN 0x5#4 x y 0x0#4
  | .ldK x k => fmtXKK 0x6#4 x k
  | .addK x k => fmtXKK 0x7#4 x k
  | .ldV x y => fmtXYN 0x8#4 x y 0x0#4
  | .or x y => fmtXYN 0x8#4 x y 0x1#4
  | .and x y => fmtXYN 0x8#4 x y 0x2#4
  | .xor x y => fmtXYN 0x8#4 x y 0x3#4
  | .addV x y => fmtXYN 0x8#4 x y 0x4#4
  | .sub x y => fmtXYN 0x8#4 x y 0x5#4
  | .shr x y => fmtXYN 0x8#4 x y 0x6#4
  | .subn x y => fmtXYN 0x8#4 x y 0x7#4
  | .shl x y => fmtXYN 0x8#4 x y 0xE#4
  | .sneV x y => fmtXYN 0x9#4 x y 0x0#4
  | .ldI addr => fmtNNN 0xA#4 addr
  | .jpV0 addr => fmtNNN 0xB#4 addr
  | .rnd x k => fmtXKK 0xC#4 x k
  | .drw x y n => fmtXYN 0xD#4 x y n
  | .skp x => fmtXKK 0xE#4 x 0x9E#8
  | .sknp x => fmtXKK 0xE#4 x 0xA1#8
  | .ldVDt x => fmtXKK 0xF#4 x 0x07#8
  | .ldVK x => fmtXKK 0xF#4 x 0x0A#8
  | .ldDtV x => fmtXKK 0xF#4 x 0x15#8
  | .ldStV x => fmtXKK 0xF#4 x 0x18#8
  | .addI x => fmtXKK 0xF#4 x 0x1E#8
  | .ldF x => fmtXKK 0xF#4 x 0x29#8
  | .ldB x => fmtXKK 0xF#4 x 0x33#8
  | .stRegs x => fmtXKK 0xF#4 x 0x55#8
  | .ldRegs x => fmtXKK 0xF#4 x 0x65#8

/-- The two bytes of an instruction as memory holds them (R56, R70). -/
def encodeBytes (i : Instr) : List Byte := bytesOfWord (encode i)

end Sys2Proof
end

