-- ==== Sys2Proof/Config.lean ====
section
/-! DEFINITION. The parameters of this hardware (spec/00_scope.md R5), the values the model names for the OPEN
parameters at reset (R6), and the two free values: constants without a body, of which nothing can be proved. -/

namespace Sys2Proof.Config

/-- MEM_SIZE: 4096 bytes, addresses 0x000 to 0xFFF (R5). -/
abbrev memSize : Nat := 4096

/-- STACK_DEPTH: 16 entries (R5). -/
abbrev stackDepth : Nat := 16

/-- DISPLAY_W: 64 columns (R5). -/
abbrev displayW : Nat := 64

/-- DISPLAY_H: 32 rows (R5). -/
abbrev displayH : Nat := 32

/-- ROM_START: the program image is placed from 0x200 (R5, R55). -/
abbrev romStart : Nat := 0x200

/-- MAX_IMAGE: 4096 - 0x200 = 3584 bytes (R5, R55). -/
abbrev maxImage : Nat := memSize - romStart

/-- PC_RESET: 0x200 (R5, R26). -/
def pcReset : Word := 0x200#16

/-- V_INIT at its reference value, all 0x00 (R6, D12). DESIGN CHOICE, unsafe: log 3. -/
def vInit : Vector Byte 16 := Vector.replicate 16 0x00#8

/-- I_INIT at its reference value 0x0000 (R6, D12). DESIGN CHOICE, unsafe: log 3. -/
def iInit : Word := 0x0000#16

/-- MEM_INIT at its reference value 0x00 for every byte outside the font and the image (R6, D13).
DESIGN CHOICE, unsafe: log 4. -/
def memInitByte : Byte := 0x00#8

/-- DISPLAY_INIT at its reference value, all pixels unset (R6, D21). DESIGN CHOICE, unsafe: log 7. -/
def displayInit : Vector (Vector Bool displayW) displayH := Vector.replicate displayH (Vector.replicate displayW false)

/-- DT_INIT at its reference value 0 (R6, D16). DESIGN CHOICE, unsafe: log 8. -/
def dtInit : Byte := 0x00#8

/-- ST_INIT at its reference value 0 (R6, D16). DESIGN CHOICE, unsafe: log 8. -/
def stInit : Byte := 0x00#8

/-- The keypad at reset, "chosen by the host" (R37): no key pressed. DESIGN CHOICE, unsafe: log 9. -/
def keysInit : Keypad := 0x0000#16

/-- The two values of the OPEN parameter FONT_INDEX_HIGH (R6, R174). -/
inductive FontIndexHigh where
  /-- `I <- 5 * d` for every byte d. -/
  | unmasked
  /-- `I <- 5 * (d AND 0xF)` for d > 0xF. -/
  | lowNibble
  deriving DecidableEq, Repr, Inhabited

/-- FONT_INDEX_HIGH of a block whose construction leaves it OPEN (R6, R174, D7): a free value, so that a claim holds
for both readings. DESIGN CHOICE, safe: log 6. -/
opaque fontIndexHigh : FontIndexHigh

/-- The byte the random source gives at its n-th free draw (R210, R252, D20): a free value.
DESIGN CHOICE, safe: log 10. -/
opaque randomByte : Nat → Byte

end Sys2Proof.Config
end

