-- ==== Sys2Proof/Machine/State.lean ====
section
/-! DEFINITION. The state of the block and of its environment as plain data (spec/10_state.md R20 to R37), the
outcomes of a step, and the state after reset (R37, spec/70_reset_and_hazards.md R280). -/

namespace Sys2Proof.Machine

/-- Memory (R50): the bytes that differ from their contents at construction, addresses strictly rising. -/
abbrev Memory := List Host.Cell

/-- The display buffer (R32): 32 rows of 64 pixels, `true` where the pixel is set. -/
abbrev Display := Vector (Vector Bool Config.displayW) Config.displayH

/-- The error kinds with their records (spec/60_exceptions.md R241). -/
inductive Error where
  /-- The fetched word decodes to Invalid; `pc` is the fetch address before the advance. -/
  | decodeError (word pc : Word)
  /-- Push with 16 entries present: CALL. -/
  | stackOverflow
  /-- Pop with no entry present: RET. -/
  | stackUnderflow
  /-- An access range reaches past 0xFFF; `addr` is max(base, 4096). -/
  | outOfBounds (addr : Nat)
  /-- A key number above 0xF: SKP, SKNP. -/
  | invalidKey (value : Byte)
  deriving DecidableEq, Repr

/-- The run status (R34). -/
inductive Status where
  /-- The block executes the next instruction when the host requests a step. -/
  | running
  /-- A key wait is in progress: `x` is the destination register, `k0` the keypad vector last sampled. -/
  | waitKey (x : Nibble) (k0 : Keypad)
  /-- A fatal error occurred; the block executes nothing more. -/
  | faulted (e : Error)
  deriving DecidableEq, Repr

/-- The OPEN parameters a construction takes (spec/00_scope.md R6; spec/60_exceptions.md R261 lets the host choose
them). -/
structure InitParams where
  /-- V_INIT. -/
  v : Vector Byte 16
  /-- I_INIT. -/
  i : Word
  /-- MEM_INIT from address 0; an address past the end of the list has the reference byte. -/
  mem : List Byte
  /-- FONT: the 80 bytes of the 16 glyphs. -/
  font : Vector Byte 80
  /-- DISPLAY_INIT. -/
  disp : Display
  /-- DT_INIT. -/
  dt : Byte
  /-- ST_INIT. -/
  st : Byte
  /-- FONT_INDEX_HIGH, `none` where the host leaves it open. -/
  fontHigh : Option Config.FontIndexHigh
  deriving DecidableEq, Repr

/-- What the host does between two steps of the block (R260). -/
inductive HostAction where
  /-- Step(): request one step. -/
  | step
  /-- Tick(): one timer tick. -/
  | tick
  /-- SetKeypad(K'): replace the keypad vector. -/
  | setKeypad (keys : Keypad)
  /-- ReadDisplay(): read the display out. -/
  | readDisplay
  /-- Construct(image), with the OPEN parameters it takes. -/
  | construct (params : InitParams) (image : List Byte)
  deriving DecidableEq, Repr

/-- The state: the block's own (R20), the environment's (R35), and the model's own fields, which hold the open
environment as plain data (INVENTORY.md, State). -/
structure State where
  /-- V0 to VF (R21). -/
  v : Vector Byte 16
  /-- The index register I (R25). -/
  i : Word
  /-- The program counter PC (R26). -/
  pc : Word
  /-- The call stack, oldest entry first (R28). -/
  stack : List Word
  /-- Mem (R50). -/
  mem : Memory
  /-- Disp (R32). -/
  disp : Display
  /-- Status (R34). -/
  status : Status
  /-- FONT_INDEX_HIGH as this block was constructed (R6, R261), `none` where it was left open. DESIGN CHOICE, log 6. -/
  fontHigh : Option Config.FontIndexHigh
  /-- The delay timer DT (R35). -/
  dt : Byte
  /-- The sound timer ST (R35). -/
  st : Byte
  /-- The keypad vector K (R35). -/
  keys : Keypad
  /-- The host's coming actions, the next one first. Empty: the host only requests steps. DESIGN CHOICE, log 11. -/
  hostActs : List HostAction
  /-- The answers a deterministic random source has ready (R252), the next one first. DESIGN CHOICE, log 10. -/
  randAnswers : List Byte
  /-- How many free random bytes have been drawn: the argument of `Config.randomByte`. DESIGN CHOICE, log 10. -/
  randDraws : Nat
  /-- How often StepDone has been strobed (R93). DESIGN CHOICE, log 12. -/
  stepDones : Nat
  deriving DecidableEq, Repr

/-- The reasons a step could stop the machine with a fault: there are none. Every error the spec names has an
effect of its own, `Status <- Faulted(E)` (R240), and is a next state (log 1). -/
inductive Fault where
  deriving DecidableEq, Repr

/-- The reasons a step can be refused. -/
inductive Refusal where
  /-- An instruction without a meaning; no arm of `exec` raises it. Safe: nothing is claimed of such a step. -/
  | notModelled (mnemonic : String)
  /-- Raised by the host action Construct for an image of more than 3584 bytes: no block is produced (R281).
  Safe: the run ends there. -/
  | imageTooLarge (len : Nat)
  deriving DecidableEq, Repr

/-- The state right after reset, which is construction from an empty image with the reference parameters (R37,
R280): PC at 0x200, the stack empty, memory at its construction contents, Status Running, FONT_INDEX_HIGH left open
(log 6), and the registers without a stated reset value at the values logs 3, 7, 8 and 9 name. -/
def State.reset : State where
  v := Config.vInit
  i := Config.iInit
  pc := Config.pcReset
  stack := []
  mem := []
  disp := Config.displayInit
  status := .running
  fontHigh := none
  dt := Config.dtInit
  st := Config.stInit
  keys := Config.keysInit
  hostActs := []
  randAnswers := []
  randDraws := 0
  stepDones := 0

end Sys2Proof.Machine
end

