-- ==== Sys2Proof/Machine/Ops.lean ====
section
/-! DEFINITION. The operations every instruction is written over: memory and its range check (spec/20_memory.md),
the program counter, the call stack (spec/10_state.md R28 to R31), raising a fatal error (spec/60_exceptions.md R240)
and fetching an instruction (spec/30_encoding.md R90). There is no return from an error (R245): the only way on from
Faulted is the construction of a new block, in Machine/Ports.lean. -/

namespace Sys2Proof.Machine

/-- What a meaning answers. -/
abbrev Result := Host.Outcome State Fault Refusal

/-- FONT at its reference value (R53), one row per digit. PRESUMED, unsafe: log 5. -/
def fontBytes : Vector Byte 80 := #v[
  0xF0, 0x90, 0x90, 0x90, 0xF0,
  0x20, 0x60, 0x20, 0x20, 0x70,
  0xF0, 0x10, 0xF0, 0x80, 0xF0,
  0xF0, 0x10, 0xF0, 0x10, 0xF0,
  0x90, 0x90, 0xF0, 0x10, 0x10,
  0xF0, 0x80, 0xF0, 0x10, 0xF0,
  0xF0, 0x80, 0xF0, 0x90, 0xF0,
  0xF0, 0x10, 0x20, 0x40, 0x40,
  0xF0, 0x90, 0xF0, 0x90, 0xF0,
  0xF0, 0x90, 0xF0, 0x10, 0xF0,
  0xF0, 0x90, 0xF0, 0x90, 0x90,
  0xE0, 0x90, 0xE0, 0x90, 0xE0,
  0xF0, 0x80, 0x80, 0x80, 0xF0,
  0xE0, 0x90, 0x90, 0x90, 0xE0,
  0xF0, 0x80, 0xF0, 0x80, 0xF0,
  0xF0, 0x80, 0xF0, 0x80, 0x80]

/-- What an address that memory does not list reads as: its contents at construction, the font at 0x000-0x04F and
MEM_INIT elsewhere (R37, R52). DESIGN CHOICE, unsafe: logs 4 and 5. -/
def unlistedByte (a : Nat) : Byte := if h : a < 80 then fontBytes[a] else Config.memInitByte

/-- The cells that make address `a` read as `b`: none where it reads so unlisted. -/
def Memory.cell (a : Nat) (b : Byte) : Memory := if b = unlistedByte a then [] else [(a, b)]

/-- `MemRead(a, 1)` (R9). The caller has checked the range (R58). -/
def Memory.read (m : Memory) (a : Nat) : Byte :=
  match m with
  | [] => unlistedByte a
  | c :: rest => if c.1 = a then c.2 else Memory.read rest a

/-- `MemWrite(a, 1, b)` (R9), keeping the canonical form. The caller has checked the range (R58). -/
def Memory.write (m : Memory) (a : Nat) (b : Byte) : Memory :=
  match m with
  | [] => Memory.cell a b
  | c :: rest =>
    if a < c.1 then Memory.cell a b ++ c :: rest
    else if a = c.1 then Memory.cell a b ++ rest
    else c :: Memory.write rest a b

/-- The bytes at `base`, `base + 1`, …, `len` of them. -/
def Memory.readBytes (m : Memory) (base len : Nat) : List Byte :=
  match len with
  | 0 => []
  | len + 1 => m.read base :: Memory.readBytes m (base + 1) len

/-- Write a list of bytes at ascending addresses from `base`. -/
def Memory.writeBytes (m : Memory) (base : Nat) (bytes : List Byte) : Memory :=
  match bytes with
  | [] => m
  | b :: rest => Memory.writeBytes (m.write base b) (base + 1) rest

/-- The canonical form: addresses strictly rising, all inside the address space, and no cell equal to what its
address reads as unlisted. -/
abbrev Memory.wf (m : Memory) : Prop :=
  m.Pairwise (fun c d => c.1 < d.1) ∧ ∀ c ∈ m, c.1 < Config.memSize ∧ c.2 ≠ unlistedByte c.1

/-- `CheckRange(base, len)` (R58), in unbounded arithmetic: the error it raises, if it raises one. -/
def checkRange (base len : Nat) : Option Error :=
  if base + len > Config.memSize then some (.outOfBounds (max base Config.memSize)) else none

/-- Raise a fatal error in the state from before the step (R92, R240): that state with `Status <- Faulted(e)`.
No handler, no vector, no saved PC (R244); what the error saves is its record. -/
def raise (e : Error) (s : State) : Result := .next { s with status := .faulted e }

/-- The numeric code of an error kind (R241). -/
def Error.code : Error → Nat
  | .decodeError _ _ => 1
  | .stackOverflow => 2
  | .stackUnderflow => 3
  | .outOfBounds _ => 4
  | .invalidKey _ => 5

/-- `PC <- fpc + 2`, the advance before the decoded effect (R90). -/
def State.advance (s : State) : State := { s with pc := s.pc + 2#16 }

/-- `if c: PC <- PC + 2`, a skip (R114). -/
def State.skipIf (c : Bool) (s : State) : State := if c then { s with pc := s.pc + 2#16 } else s

/-- `PC <- target` (R8). -/
def State.setPc (s : State) (target : Word) : State := { s with pc := target }

/-- `I <- w` (R8). -/
def State.setI (s : State) (w : Word) : State := { s with i := w }

/-- `Push(w)` (R29): the stack with the entry appended, or the error. -/
def push (stack : List Word) (w : Word) : Except Error (List Word) :=
  if stack.length ≥ Config.stackDepth then .error .stackOverflow else .ok (stack ++ [w])

/-- `Pop()` (R30): the most recent entry and the stack without it, or the error. -/
def pop (stack : List Word) : Except Error (Word × List Word) :=
  match stack.getLast? with
  | none => .error .stackUnderflow
  | some w => .ok (w, stack.dropLast)

/-- The instruction word at an address: two byte reads, big-endian (R56). -/
def State.wordAt (s : State) (a : Nat) : Word := wordOfBytes (s.mem.read a) (s.mem.read (a + 1))

/-- Fetch and decode at PC (R90): the range check first, then the decoder, each with its own error (R92, R243). -/
def fetchInstr (s : State) : Except Error Instr :=
  match checkRange s.pc.toNat 2 with
  | some e => .error e
  | none =>
    match decodeWord (s.wordAt s.pc.toNat) with
    | none => .error (.decodeError (s.wordAt s.pc.toNat) s.pc)
    | some ins => .ok ins

/-- `StepDone()` (R93, R257): one more strobe. -/
def State.strobe (s : State) : State := { s with stepDones := s.stepDones + 1 }

/-- `if Status = Running: StepDone()`, the end of a step (R90). -/
def State.endStep (s : State) : State := if s.status = .running then s.strobe else s

/-- The end of a step, on whatever the instruction answered. -/
def finish : Result → Result
  | .next s => .next s.endStep
  | .fault f => .fault f
  | .refused r => .refused r

end Sys2Proof.Machine
end

