-- ==== Sys2Proof/Machine/Operands.lean ====
section
/-! DEFINITION. The operand forms (spec/30_encoding.md R72): a general register by its number, an address
zero-extended to a word, a byte zero-extended to a word, the registers of a block transfer, a decimal digit split,
a glyph address and a display coordinate. -/

namespace Sys2Proof.Machine

/-- The index of VF (R5). -/
abbrev regF : Nibble := 0xF#4

/-- `V[r]` (R8, R21). -/
def State.getV (s : State) (r : Nibble) : Byte := s.v[r.toNat]'r.isLt

/-- `V[r] <- b` (R8, R21). -/
def State.setV (s : State) (r : Nibble) (b : Byte) : State := { s with v := s.v.set r.toNat b r.isLt }

/-- `zext_16(addr)` (R72). -/
def zextAddr (addr : Addr) : Word := addr.setWidth 16

/-- `zext_16(b)` of a byte (R72). -/
def zextByte (b : Byte) : Word := b.setWidth 16

/-- `V[0..x]`, inclusive, ascending: the bytes Fx55 stores (R178). -/
def State.regsTo (s : State) (x : Nibble) : List Byte := s.v.toList.take (x.toNat + 1)

/-- `V[j] <- MemRead(base + j, 1)` for j in 0..x, inclusive; the registers above x keep their values (R180). -/
def State.loadRegs (s : State) (x : Nibble) (base : Nat) : State :=
  { s with v := Vector.ofFn fun j : Fin 16 => if j.val ≤ x.toNat then s.mem.read (base + j.val) else s.v[j.val] }

/-- The three decimal digits of a byte, hundreds first (R176). -/
def bcdDigits (b : Byte) : List Byte :=
  [BitVec.ofNat 8 (b.toNat / 100), BitVec.ofNat 8 (b.toNat / 10 % 10), BitVec.ofNat 8 (b.toNat % 10)]

/-- FONT_INDEX_HIGH of this block: what the host chose at construction (R261), else the free value (log 6). -/
def State.fontIndexHigh (s : State) : Config.FontIndexHigh := s.fontHigh.getD Config.fontIndexHigh

/-- The address Fx29 gives for the digit d (R174), under either value of FONT_INDEX_HIGH. -/
def fontAddress (high : Config.FontIndexHigh) (d : Byte) : Word :=
  if d.toNat ≤ 0xF then BitVec.ofNat 16 (5 * d.toNat)
  else match high with
    | .unmasked => BitVec.ofNat 16 (5 * d.toNat)
    | .lowNibble => BitVec.ofNat 16 (5 * (d.toNat % 16))

/-- The origin column of a sprite, `cx mod 64` (R191, R192). -/
def originColumn (cx : Byte) : Nat := cx.toNat % Config.displayW

/-- The origin row of a sprite, `cy mod 32` (R191, R192). -/
def originRow (cy : Byte) : Nat := cy.toNat % Config.displayH

end Sys2Proof.Machine
end

