-- ==== Sys2Proof/Machine/Flags.lean ====
section
/-! DEFINITION. The flag values VF takes (spec/10_state.md R23), on the operands read before the instruction writes
anything, and the order of the result and the flag (spec/42_alu.md R140). -/

namespace Sys2Proof.Machine

/-- A flag as a byte: 1 or 0. -/
def flagByte (c : Bool) : Byte := if c then 1#8 else 0#8

/-- The flag of OR, AND and XOR: always 0 (R142 to R144). -/
def logicFlag : Byte := 0#8

/-- The carry of 8xy4: the sum is at least 256 (R145). -/
def carryFlag (a b : Byte) : Byte := flagByte (a.toNat + b.toNat ≥ 256)

/-- The not-borrow of `a - b`: a is at least b (R146; R148 with the operands exchanged). -/
def notBorrowFlag (a b : Byte) : Byte := flagByte (a.toNat ≥ b.toNat)

/-- The bit 8xy6 shifts out, bit 0 of the source (R147). -/
def shiftedOutLow (b : Byte) : Byte := flagByte (b.getLsbD 0)

/-- The bit 8xyE shifts out, bit 7 of the source (R149). -/
def shiftedOutHigh (b : Byte) : Byte := flagByte (b.getLsbD 7)

/-- The result to V[x] first, the flag to VF second, so that with x = 0xF VF holds the flag (R140, D2: log 13). -/
def State.writeResultFlag (s : State) (x : Nibble) (result flag : Byte) : State :=
  (s.setV x result).setV regF flag

end Sys2Proof.Machine
end

