-- ==== Sys2Proof/Machine/Alu.lean ====
section
/-! DEFINITION. The arithmetic-logic instructions (spec/42_alu.md): both operands are read before anything is
written, the result goes to V[x] first and the flag to VF second (R140). -/

namespace Sys2Proof.Machine

/-- LD Vx, Vy (R141): `V[x] <- V[y]`; no flag. -/
def execLdV (x y : Nibble) (s : State) : Result := .next (s.advance.setV x (s.getV y))

/-- OR Vx, Vy (R142). -/
def execOr (x y : Nibble) (s : State) : Result :=
  .next (s.advance.writeResultFlag x (s.getV x ||| s.getV y) logicFlag)

/-- AND Vx, Vy (R143). -/
def execAnd (x y : Nibble) (s : State) : Result :=
  .next (s.advance.writeResultFlag x (s.getV x &&& s.getV y) logicFlag)

/-- XOR Vx, Vy (R144). -/
def execXor (x y : Nibble) (s : State) : Result :=
  .next (s.advance.writeResultFlag x (s.getV x ^^^ s.getV y) logicFlag)

/-- ADD Vx, Vy (R145). -/
def execAddV (x y : Nibble) (s : State) : Result :=
  .next (s.advance.writeResultFlag x (s.getV x + s.getV y) (carryFlag (s.getV x) (s.getV y)))

/-- SUB Vx, Vy (R146). -/
def execSub (x y : Nibble) (s : State) : Result :=
  .next (s.advance.writeResultFlag x (s.getV x - s.getV y) (notBorrowFlag (s.getV x) (s.getV y)))

/-- SHR Vx, Vy (R147): the source is V[y]. -/
def execShr (x y : Nibble) (s : State) : Result :=
  .next (s.advance.writeResultFlag x (s.getV y >>> 1) (shiftedOutLow (s.getV y)))

/-- SUBN Vx, Vy (R148): V[y] - V[x]. -/
def execSubn (x y : Nibble) (s : State) : Result :=
  .next (s.advance.writeResultFlag x (s.getV y - s.getV x) (notBorrowFlag (s.getV y) (s.getV x)))

/-- SHL Vx, Vy (R149): the source is V[y]. -/
def execShl (x y : Nibble) (s : State) : Result :=
  .next (s.advance.writeResultFlag x (s.getV y <<< 1) (shiftedOutHigh (s.getV y)))

end Sys2Proof.Machine
end

