-- ==== Sys2Proof/Machine/Control.lean ====
section
/-! DEFINITION. The control transfers (spec/40_control_flow.md). Each meaning takes the state from before the step,
whose PC is the instruction's own address fpc; it advances PC to fpc + 2 first (spec/30_encoding.md R90), and a
raised error leaves the state as it was before the step (R92). -/

namespace Sys2Proof.Machine

/-- RET (R101): `PC <- Pop()`. -/
def execRet (s : State) : Result :=
  match pop s.stack with
  | .error e => raise e s
  | .ok (target, rest) => .next ({ s.advance with stack := rest }.setPc target)

/-- JP addr (R102): `PC <- zext_16(addr)`. -/
def execJp (addr : Addr) (s : State) : Result := .next (s.advance.setPc (zextAddr addr))

/-- CALL addr (R103): `Push(PC)` with PC = fpc + 2, then `PC <- zext_16(addr)`. -/
def execCall (addr : Addr) (s : State) : Result :=
  match push s.stack s.advance.pc with
  | .error e => raise e s
  | .ok stack => .next ({ s.advance with stack := stack }.setPc (zextAddr addr))

/-- SE Vx, byte (R104): skip if V[x] = k. -/
def execSeK (x : Nibble) (k : Byte) (s : State) : Result := .next (s.advance.skipIf (s.getV x == k))

/-- SNE Vx, byte (R106): skip if V[x] is not k. -/
def execSneK (x : Nibble) (k : Byte) (s : State) : Result := .next (s.advance.skipIf (s.getV x != k))

/-- SE Vx, Vy (R108): skip if V[x] = V[y]. -/
def execSeV (x y : Nibble) (s : State) : Result := .next (s.advance.skipIf (s.getV x == s.getV y))

/-- SNE Vx, Vy (R110): skip if V[x] is not V[y]. -/
def execSneV (x y : Nibble) (s : State) : Result := .next (s.advance.skipIf (s.getV x != s.getV y))

/-- JP V0, addr (R112): `PC <- zext_16(addr) + zext_16(V[0])`. -/
def execJpV0 (addr : Addr) (s : State) : Result :=
  .next (s.advance.setPc (zextAddr addr + zextByte (s.getV 0#4)))

end Sys2Proof.Machine
end

