-- ==== Sys2Proof/Machine/Display.lean ====
section
/-! DEFINITION. The display instructions and the XOR plot with its wrapped origin and clipped pixels
(spec/44_display.md). -/

namespace Sys2Proof.Machine

/-- `Disp[c][r]` (R32); outside the grid there is no pixel. -/
def Display.pixel (d : Display) (c r : Nat) : Bool :=
  if h : r < Config.displayH ∧ c < Config.displayW then d[r][c] else false

/-- `Disp[c][r] <- Disp[c][r] XOR 1`. -/
def Display.flip (d : Display) (c r : Nat) : Display :=
  if h : r < Config.displayH ∧ c < Config.displayW then d.set r (d[r].set c (!d[r][c])) else d

/-- Every pixel unset (R190). -/
def Display.clear : Display := Vector.replicate Config.displayH (Vector.replicate Config.displayW false)

/-- One sprite bit at the absolute pixel (px, py) (R191): clipped outside the grid (R194), else XORed in, with the
collision noted where it meets a set pixel (R195). -/
def plotBit (px py : Nat) (bit : Bool) (acc : Display × Bool) : Display × Bool :=
  if px ≥ Config.displayW ∨ py ≥ Config.displayH then acc
  else if bit then (acc.1.flip px py, acc.2 || acc.1.pixel px py)
  else acc

/-- One sprite row at row `py`: its 8 bits, the most significant first, at columns ox to ox + 7 (R194). -/
def plotRow (ox py : Nat) (row : Byte) (acc : Display × Bool) : Display × Bool :=
  (List.range 8).foldl (fun acc c => plotBit (ox + c) py (row.getLsbD (7 - c)) acc) acc

/-- The rows of a sprite downwards from row `py` (R191). -/
def plotRows (ox py : Nat) (rows : List Byte) (acc : Display × Bool) : Display × Bool :=
  match rows with
  | [] => acc
  | row :: rest => plotRows ox (py + 1) rest (plotRow ox py row acc)

/-- CLS (R190): every pixel unset; VF is not written. -/
def execCls (s : State) : Result := .next { s.advance with disp := Display.clear }

/-- DRW Vx, Vy, nibble (R191): n rows from memory at I, drawn at the origin (V[x] mod 64, V[y] mod 32); VF gets the
collision flag, written last and always (R195). -/
def execDrw (x y n : Nibble) (s : State) : Result :=
  match checkRange s.i.toNat n.toNat with
  | some e => raise e s
  | none =>
    let drawn := plotRows (originColumn (s.getV x)) (originRow (s.getV y)) (s.mem.readBytes s.i.toNat n.toNat)
      (s.disp, false)
    .next ({ s.advance with disp := drawn.1 }.setV regF (flagByte drawn.2))

end Sys2Proof.Machine
end

