-- ==== Sys2Proof/Machine/Immediate.lean ====
section
/-! DEFINITION. The register-immediate instructions (spec/41_register_immediate.md). Neither writes VF as a flag. -/

namespace Sys2Proof.Machine

/-- LD Vx, byte (R130): `V[x] <- k`. -/
def execLdK (x : Nibble) (k : Byte) (s : State) : Result := .next (s.advance.setV x k)

/-- ADD Vx, byte (R132): `V[x] <- (V[x] + k) mod 256`. -/
def execAddK (x : Nibble) (k : Byte) (s : State) : Result := .next (s.advance.setV x (s.getV x + k))

end Sys2Proof.Machine
end

