-- ==== Sys2Proof/Machine/Index.lean ====
section
/-! DEFINITION. The index register and memory instructions (spec/43_index_memory.md). The range check precedes every
access and every write (R58). I is left as it was by the block transfers and the decimal store. -/

namespace Sys2Proof.Machine

/-- LD I, addr (R170): `I <- zext_16(addr)`. -/
def execLdI (addr : Addr) (s : State) : Result := .next (s.advance.setI (zextAddr addr))

/-- ADD I, Vx (R172): `I <- trunc_16(I + zext_16(V[x]))`; no flag (wrapping: D6, log 14). -/
def execAddI (x : Nibble) (s : State) : Result := .next (s.advance.setI (s.i + zextByte (s.getV x)))

/-- LD F, Vx (R174): the glyph address of the digit V[x]; above 0xF the block's
FONT_INDEX_HIGH decides (log 6). -/
def execLdF (x : Nibble) (s : State) : Result :=
  .next (s.advance.setI (fontAddress s.fontIndexHigh (s.getV x)))

/-- LD B, Vx (R176): the three decimal digits of V[x] at I, I + 1, I + 2. -/
def execLdB (x : Nibble) (s : State) : Result :=
  match checkRange s.i.toNat 3 with
  | some e => raise e s
  | none => .next { s.advance with mem := s.mem.writeBytes s.i.toNat (bcdDigits (s.getV x)) }

/-- LD [I], Vx (R178): V[0..x] to memory from I. -/
def execStRegs (x : Nibble) (s : State) : Result :=
  match checkRange s.i.toNat (x.toNat + 1) with
  | some e => raise e s
  | none => .next { s.advance with mem := s.mem.writeBytes s.i.toNat (s.regsTo x) }

/-- LD Vx, [I] (R180): memory from I to V[0..x]. -/
def execLdRegs (x : Nibble) (s : State) : Result :=
  match checkRange s.i.toNat (x.toNat + 1) with
  | some e => raise e s
  | none => .next (s.advance.loadRegs x s.i.toNat)

end Sys2Proof.Machine
end

