-- ==== Sys2Proof/WellFormed.lean ====
section
/-! DEFINITION. What is well-formed. A term of `Instr` always is: each operand's type is exactly its field, and in
a valid word every bit selects the instruction or is an operand bit (spec/30_encoding.md R77). What can be ill-formed
is a raw instruction word, and a program image. The word check is written from the opcode map in prose (R75 to R77),
apart from the decoder, which is written from R74. -/

namespace Sys2Proof

/-- The word is one of the 43954 valid ones, by the opcode map in prose (R75): one check per op nibble. -/
def validWord (w : Word) : Bool :=
  let op := w.toNat / 0x1000
  let k := w.toNat % 0x100
  let n := w.toNat % 0x10
  if op = 0x0 then w.toNat = 0x00E0 || w.toNat = 0x00EE
  else if op = 0x5 || op = 0x9 then n = 0
  else if op = 0x8 then n ≤ 7 || n = 0xE
  else if op = 0xE then k = 0x9E || k = 0xA1
  else if op = 0xF then [0x07, 0x0A, 0x15, 0x18, 0x1E, 0x29, 0x33, 0x55, 0x65].contains k
  else true

/-- The image fits between 0x200 and the end of memory: at most 3584 bytes (R55, R281). -/
def imageFits (image : List Byte) : Bool := image.length ≤ Config.maxImage

end Sys2Proof
end

