-- ==== Sys2Proof/Machine/Ports.lean ====
section
/-! DEFINITION. The block's ports and the host's actions (spec/60_exceptions.md R250 to R261): the random source,
the keypad with the completion of a key wait (spec/45_io.md R223, R224), the timers and their ticks, the display
read-out, and construction (spec/70_reset_and_hazards.md R280, R281). -/

namespace Sys2Proof.Machine

/-- The byte `RandByte()` answers in this state (R252): the next answer of a deterministic source where one stands
ready, else a free value. DESIGN CHOICE, safe: log 10. -/
def State.randByte (s : State) : Byte :=
  match s.randAnswers with
  | b :: _ => b
  | [] => Config.randomByte s.randDraws

/-- The random source after one `RandByte()`. -/
def State.afterRand (s : State) : State :=
  match s.randAnswers with
  | _ :: rest => { s with randAnswers := rest }
  | [] => { s with randDraws := s.randDraws + 1 }

/-- `KeyDown(k)` for k in 0x0 to 0xF (R253): the level of the key at this step (D27, log 28). -/
def State.keyDown (s : State) (k : Nat) : Bool := s.keys.getLsbD k

/-- `DTRead()` (R254). -/
def State.dtRead (s : State) : Byte := s.dt

/-- `DTWrite(b)` (R254). -/
def State.dtWrite (s : State) (b : Byte) : State := { s with dt := b }

/-- `STWrite(b)` (R255). -/
def State.stWrite (s : State) (b : Byte) : State := { s with st := b }

/-- One tick of a timer, saturating at 0 (R258). -/
def tickTimer (b : Byte) : Byte := if b.toNat > 0 then b - 1#8 else 0#8

/-- `Tick()` (R258). -/
def State.tick (s : State) : State := { s with dt := tickTimer s.dt, st := tickTimer s.st }

/-- The keys pressed in the last sample and not in the new vector (R223). -/
def releasedKeys (prev now : Keypad) : Keypad := prev &&& ~~~now

/-- The lowest-numbered key of a set, `none` for the empty set (R223, D9: log 16). -/
def lowestKey (keys : Keypad) : Option Nat := (List.range 16).find? fun k => keys.getLsbD k

/-- `Complete(x, key)` (R224): the register, Status Running, one strobe. -/
def State.completeWait (s : State) (x : Nibble) (key : Nat) : State :=
  ({ s.setV x (BitVec.ofNat 8 key) with status := .running }).strobe

/-- `SetKeypad(K')` (R260): the new vector, and where a key wait is in progress what R223 does with it. -/
def State.setKeypad (s : State) (now : Keypad) : State :=
  match s.status with
  | .waitKey x prev =>
    match lowestKey (releasedKeys prev now) with
    | none => { s with keys := now, status := .waitKey x now }
    | some key => { s with keys := now }.completeWait x key
  | .running => { s with keys := now }
  | .faulted _ => { s with keys := now }

/-- `ReadDisplay()` (R256): the whole display buffer; reading has no effect. -/
def State.readDisplay (s : State) : Display := s.disp

/-- The OPEN parameters at their reference values (R6), but FONT_INDEX_HIGH left open: logs 3 to 8. -/
def InitParams.reference : InitParams where
  v := Config.vInit
  i := Config.iInit
  mem := []
  font := fontBytes
  disp := Config.displayInit
  dt := Config.dtInit
  st := Config.stInit
  fontHigh := none

/-- Memory after Construct (R280): MEM_INIT, then the font, then the image from 0x200. -/
def constructMemory (p : InitParams) (image : List Byte) : Memory :=
  ((Memory.writeBytes [] 0 (p.mem.take Config.memSize)).writeBytes 0 p.font.toList).writeBytes Config.romStart image

/-- `Construct(image)` (R280): a new block in the reset state, with the OPEN parameters the host
chooses (R261) and the timers at their initial values. The keypad,
the random source, the host's coming actions and the count of strobes are the environment's and stay (log 21). An
image of more than 3584 bytes gives no block (R281). -/
def construct (p : InitParams) (image : List Byte) (s : State) : Result :=
  if imageFits image then
    .next { s with
      v := p.v, i := p.i, pc := Config.pcReset, stack := [], mem := constructMemory p image, disp := p.disp,
      status := .running, fontHigh := p.fontHigh, dt := p.dt, st := p.st }
  else .refused (.imageTooLarge image.length)

end Sys2Proof.Machine
end

