-- ==== Sys2Proof/Machine/Io.lean ====
section
/-! DEFINITION. The random, key, key wait and timer instructions (spec/45_io.md), over the ports. -/

namespace Sys2Proof.Machine

/-- RND Vx, byte (R210): `V[x] <- RandByte() AND k`. -/
def execRnd (x : Nibble) (k : Byte) (s : State) : Result :=
  .next (s.advance.afterRand.setV x (s.randByte &&& k))

/-- SKP Vx (R212): skip if the key V[x] is down; above 0xF InvalidKey (D8, log 15). -/
def execSkp (x : Nibble) (s : State) : Result :=
  if (s.getV x).toNat > 0xF then raise (.invalidKey (s.getV x)) s
  else .next (s.advance.skipIf (s.keyDown (s.getV x).toNat))

/-- SKNP Vx (R214): skip if the key V[x] is not down; above 0xF InvalidKey (D8, log 15). -/
def execSknp (x : Nibble) (s : State) : Result :=
  if (s.getV x).toNat > 0xF then raise (.invalidKey (s.getV x)) s
  else .next (s.advance.skipIf (!s.keyDown (s.getV x).toNat))

/-- LD Vx, DT (R216): `V[x] <- DTRead()`. -/
def execLdVDt (x : Nibble) (s : State) : Result := .next (s.advance.setV x s.dtRead)

/-- LD Vx, K (R220), its entry (R222): `Status <- WaitKey(x, K)`; the host's SetKeypad completes it (R223, R224). -/
def execLdVK (x : Nibble) (s : State) : Result := .next { s.advance with status := .waitKey x s.keys }

/-- LD DT, Vx (R226): `DTWrite(V[x])`. -/
def execLdDtV (x : Nibble) (s : State) : Result := .next (s.advance.dtWrite (s.getV x))

/-- LD ST, Vx (R228): `STWrite(V[x])`. -/
def execLdStV (x : Nibble) (s : State) : Result := .next (s.advance.stWrite (s.getV x))

end Sys2Proof.Machine
end

