-- ==== Sys2Proof/Machine/Step.lean ====
section
/-! DEFINITION. The step (spec/30_encoding.md R90 to R93): the host's next action (spec/60_exceptions.md R260), which
is a step request where none stands in the queue; and the placing of one instruction for the host's own questions. -/

namespace Sys2Proof.Machine

/-- Fetch, decode, execute and, where the block is still Running, strobe StepDone (R90). An error of the fetch or of
the decoder is raised in the state from before the step (R92). -/
def runInstr (s : State) : Result :=
  match fetchInstr s with
  | .error e => raise e s
  | .ok ins => finish (exec ins s)

/-- `Step()` (R90, R91): while a key wait is in progress or after a fatal error it changes nothing. -/
def stepRequest (s : State) : Result :=
  match s.status with
  | .running => runInstr s
  | .waitKey _ _ => .next s
  | .faulted _ => .next s

/-- One action of the host (R260). -/
def hostAct (a : HostAction) (s : State) : Result :=
  match a with
  | .step => stepRequest s
  | .tick => .next s.tick
  | .setKeypad keys => .next (s.setKeypad keys)
  | .readDisplay => .next s
  | .construct params image => construct params image s

/-- One step of the whole machine: the host's next action, taken off its queue; with an empty queue the host requests
a step. DESIGN CHOICE, log 11. -/
def step (s : State) : Host.Outcome State Fault Refusal :=
  match s.hostActs with
  | [] => stepRequest s
  | a :: rest => hostAct a { s with hostActs := rest }

/-- The state with one instruction, numbered as spec/opcode_table.json numbers its bits, where the very next step
fetches it: at PC (at 0x200 where PC is no address to fetch from), with the block Running and the host about to
request a step (log 24). -/
def State.withFetchWord (s : State) (nbits w : Nat) : State :=
  let pc := if s.pc.toNat ≤ 0xFFE then s.pc else Config.pcReset
  { s with
    pc := pc, status := .running, hostActs := [],
    mem := s.mem.writeBytes pc.toNat (bytesOfWord (tableWord nbits w)) }

end Sys2Proof.Machine
end

