-- ==== Sys2Proof/Safety.lean ====
section
/-! DEFINITION. The terms the statements use: the end predicates of spec/70_reset_and_hazards.md R292, what the run
status says of the state it stands in (spec/60_exceptions.md R241, spec/45_io.md R222), and the invariant every step
keeps. -/

namespace Sys2Proof.Machine

/-- Every address of memory reads in `t` what it reads in `s`. -/
def SameMemory (s t : State) : Prop := ∀ a, t.mem.read a = s.mem.read a

/-- Every general register but those in `rs` holds in `t` what it holds in `s`. -/
def SameRegsExcept (rs : List Nibble) (s t : State) : Prop := ∀ r, r ∉ rs → t.getV r = s.getV r

/-- The bit a sprite has over column c and row r, its rows drawn downwards from the origin (ox, oy): row byte r - oy,
bit 7 the leftmost (R194); `false` where the sprite does not reach. -/
def spriteBit (ox oy : Nat) (rows : List Byte) (c r : Nat) : Bool :=
  ox ≤ c && c < ox + 8 && oy ≤ r && ((rows[r - oy]?).map fun row => row.getLsbD (7 - (c - ox))).getD false

/-- Halted by convention (R292): Running, and the word at PC is a jump to PC itself. -/
def Halted (s : State) : Prop :=
  s.status = .running ∧ s.pc.toNat ≤ 0xFFE ∧ s.wordAt s.pc.toNat = 0x1000#16 ||| s.pc

/-- Faulted (R292). -/
def Faulted (s : State) : Prop := ∃ e, s.status = .faulted e

/-- The bytes the instruction reads or writes at I, `none` where it makes no data access (R57). -/
def dataLength : Instr → Option Nat
  | .drw _ _ n => some n.toNat
  | .ldB _ => some 3
  | .stRegs x => some (x.toNat + 1)
  | .ldRegs x => some (x.toNat + 1)
  | _ => none

/-- The bytes the instruction stores from I upwards, 0 where it stores nothing (R57). -/
def storeLength : Instr → Nat
  | .ldB _ => 3
  | .stRegs x => x.toNat + 1
  | _ => 0

/-- The general registers the instruction may write when it executes, as destination or as flag (R21, R22). Fx0A
writes its register only when the wait completes (R222, R224). -/
def mayWriteReg (i : Instr) (r : Nibble) : Prop :=
  match i with
  | .ldK x _ | .addK x _ | .ldV x _ | .rnd x _ | .ldVDt x => r = x
  | .or x _ | .and x _ | .xor x _ | .addV x _ | .sub x _ | .shr x _ | .subn x _ | .shl x _ => r = x ∨ r = regF
  | .drw _ _ _ => r = regF
  | .ldRegs x => r.toNat ≤ x.toNat
  | _ => False

/-- The instructions that write VF as a flag (R22). -/
def writesFlag : Instr → Bool
  | .or _ _ | .and _ _ | .xor _ _ | .addV _ _ | .sub _ _ | .shr _ _ | .subn _ _ | .shl _ _ | .drw _ _ _ => true
  | _ => false

/-- The instructions that name register 0xF in their x or y field (R22). -/
def namesVF : Instr → Bool
  | .seK x _ | .sneK x _ | .ldK x _ | .addK x _ | .rnd x _ | .skp x | .sknp x | .ldVDt x | .ldVK x | .ldDtV x
  | .ldStV x | .addI x | .ldF x | .ldB x | .stRegs x | .ldRegs x => x = regF
  | .seV x y | .sneV x y | .ldV x y | .or x y | .and x y | .xor x y | .addV x y | .sub x y | .shr x y | .subn x y
  | .shl x y | .drw x y _ => x = regF || y = regF
  | _ => false

/-- The conditional skips (R104 to R110, R212, R214). -/
def isSkip : Instr → Bool
  | .seK _ _ | .sneK _ _ | .seV _ _ | .sneV _ _ | .skp _ | .sknp _ => true
  | _ => false

/-- The error the instruction itself raises in a state, where it raises one (R241, R243). CALL overflows with 16 entries
present (R29); that it does with more, which no run reaches, is the model's reading, log 23. -/
def OwnError (i : Instr) (s : State) (e : Error) : Prop :=
  (i = .ret ∧ s.stack = [] ∧ e = .stackUnderflow) ∨
  (∃ addr, i = .call addr ∧ 16 ≤ s.stack.length ∧ e = .stackOverflow) ∨
  (∃ len, dataLength i = some len ∧ 4096 < s.i.toNat + len ∧ e = .outOfBounds (max s.i.toNat 4096)) ∨
  (∃ x, (i = .skp x ∨ i = .sknp x) ∧ 0xF < (s.getV x).toNat ∧ e = .invalidKey (s.getV x))

/-- The block's own state but Status is the same, its construction parameter included: only Status, the timers, the
keypad, the random source and the model's own fields may differ (R20, R35). -/
def SameBlock (s t : State) : Prop :=
  t.v = s.v ∧ t.i = s.i ∧ t.pc = s.pc ∧ t.stack = s.stack ∧ t.mem = s.mem ∧ t.disp = s.disp ∧ t.fontHigh = s.fontHigh

/-- The host's next action in `s` is a step request, standing first in its queue or with the queue empty; `s0` is the
state the request is served in (R90, R260; the queue is the model's: log 11). -/
def StepRequested (s s0 : State) : Prop :=
  (s.hostActs = [] ∧ s0 = s) ∨ ∃ rest, s.hostActs = .step :: rest ∧ s0 = { s with hostActs := rest }

/-- The word at an address is one of an instruction's own. -/
def InstrAt (s : State) (a : Nat) (i : Instr) : Prop := a ≤ 0xFFE ∧ decodeWord (s.wordAt a) = some i

/-- A recorded error is justified by the precise state it stands in (R92, R241): by PC, by the word at PC, or by the
instruction at PC and its operands. -/
def Error.Justified (e : Error) (s : State) : Prop :=
  match e with
  | .decodeError word pc => pc = s.pc ∧ pc.toNat ≤ 0xFFE ∧ word = s.wordAt pc.toNat ∧ decodeWord word = none
  | .stackOverflow => ∃ addr, InstrAt s s.pc.toNat (.call addr) ∧ s.stack.length = Config.stackDepth
  | .stackUnderflow => InstrAt s s.pc.toNat .ret ∧ s.stack = []
  | .outOfBounds addr =>
    (0xFFE < s.pc.toNat ∧ addr = max s.pc.toNat Config.memSize) ∨
    ∃ i len, InstrAt s s.pc.toNat i ∧ dataLength i = some len ∧ Config.memSize < s.i.toNat + len ∧
      addr = max s.i.toNat Config.memSize
  | .invalidKey value =>
    ∃ x, (InstrAt s s.pc.toNat (.skp x) ∨ InstrAt s s.pc.toNat (.sknp x)) ∧ value = s.getV x ∧ 0xF < value.toNat

/-- The run status is justified by the state it stands in: a key wait was entered by the Fx0A just before PC and its
sample is the keypad as it stands (R222, R223); a recorded error is justified. -/
def Status.Justified (st : Status) (s : State) : Prop :=
  match st with
  | .running => True
  | .waitKey x k0 => k0 = s.keys ∧ 2 ≤ s.pc.toNat ∧ InstrAt s (s.pc.toNat - 2) (.ldVK x)
  | .faulted e => e.Justified s

/-- The invariant of the machine: memory in canonical form; at most 16 stack entries (R28), each a PC after a fetch
(R27); PC in the range R27 gives; and a run status that the state justifies. -/
structure State.Inv (s : State) : Prop where
  memWf : s.mem.wf
  stackDepth : s.stack.length ≤ Config.stackDepth
  stackEntries : ∀ w ∈ s.stack, w.toNat ≤ 0x1000
  pcRange : s.pc.toNat ≤ 0x10FE
  statusJustified : s.status.Justified s

end Sys2Proof.Machine
end

