-- ==== Sys2Proof/Certificates/Slice0/Obligations.lean ====
section
/-! DEFINITION. The statements for the provers. Each docstring names the rules of spec/ it formalises; where a clause
rests on a decision of the spec's own or on a choice of the model, it says so and names the log entry. A statement
about what an instruction does has its completion as conclusion (`exec … = .next t`), its result, and its frame: the
equation `t = { s with … }` names every field that may differ. -/

open Sys2Proof Sys2Proof.Machine

/-! ## Encoding -/

/-- Words written out from the encodings of spec/30_encoding.md R74 and R95 decode to their instructions. -/
def Obligations.WrittenOutWordsDecode : Prop :=
  decodeWord 0x00E0#16 = some .cls ∧ decodeWord 0x00EE#16 = some .ret ∧ decodeWord 0x1ABC#16 = some (.jp 0xABC#12) ∧
  decodeWord 0x3D47#16 = some (.seK 0xD#4 0x47#8) ∧ decodeWord 0x8A5E#16 = some (.shl 0xA#4 0x5#4) ∧
  decodeWord 0xD123#16 = some (.drw 0x1#4 0x2#4 0x3#4) ∧ decodeWord 0xE7A1#16 = some (.sknp 0x7#4) ∧
  decodeWord 0xF933#16 = some (.ldB 0x9#4) ∧ decodeWord 0x8008#16 = none ∧ decodeWord 0x5121#16 = none

/-- The two bytes of every instruction, whatever bytes follow, decode to it with every operand (R70, R73, R74). -/
def Obligations.DecodeOfEncodedBytesIsTheInstruction : Prop :=
  ∀ (i : Instr) (rest : List Byte), decodeBytes (encodeBytes i ++ rest) = some (i, rest)

/-- Every valid word is the encoding of the instruction it decodes to, so no bit of it is ignored (R77). -/
def Obligations.EncodeOfDecodedWordIsTheWord : Prop :=
  ∀ (w : Word) (i : Instr), decodeWord w = some i → encode i = w

/-- The decoder of R74 accepts exactly the words the opcode map in prose calls valid (R75, R77). -/
def Obligations.DecoderAcceptsExactlyTheValidWords : Prop :=
  ∀ w : Word, (decodeWord w).isSome = validWord w

/-- R76: of the words 0x0nnn only 0x00E0 and 0x00EE are instructions; every other one is invalid, and a step that
fetches it raises DecodeError. -/
def Obligations.ZeroOpSpaceHoldsTwoInstructions : Prop :=
  decodeWord 0x00E0#16 = some .cls ∧ decodeWord 0x00EE#16 = some .ret ∧
  ∀ w : Word, w.toNat < 0x1000 → w ≠ 0x00E0#16 → w ≠ 0x00EE#16 →
    decodeWord w = none ∧
    ∀ s s0 : State, s.status = .running → StepRequested s s0 → s.pc.toNat ≤ 0xFFE → s.wordAt s.pc.toNat = w →
      ∃ t, step s = .next t ∧ t.status = .faulted (.decodeError w s.pc)

/-! ## The step cycle -/

/-- Where the block is Running and the two bytes at PC, big-endian, decode to an instruction (R56, R90), a step is its
meaning, and one strobe of StepDone where the block is still Running after it (R93). The host's queue (log 11) and
the count of strobes (log 12) are the model's own: the step is the next action where the queue is empty or a step
request stands first in it. -/
def Obligations.StepRunsTheDecodedInstruction : Prop :=
  ∀ (s : State) (i : Instr), s.status = .running → s.pc.toNat ≤ 0xFFE →
    decodeWord (wordOfBytes (s.mem.read s.pc.toNat) (s.mem.read (s.pc.toNat + 1))) = some i →
    ∀ s0 t : State, StepRequested s s0 → exec i s0 = .next t →
      step s = .next (if t.status = .running then { t with stepDones := t.stepDones + 1 } else t)

/-- A fetch outside memory raises OutOfBounds before anything is decoded, an invalid word raises DecodeError with the
word and the address it was fetched from; the state is otherwise the one before the step (R79, R92, R243; the
recorded address and the precise state are the spec's decisions D4 and D3, logs 2 and 1). So it is wherever a step is
requested, by an empty queue or by a request standing first in it (log 11). -/
def Obligations.FetchErrorsAreRaisedInOrder : Prop :=
  ∀ s s0 : State, s.status = .running → StepRequested s s0 →
    (0xFFE < s.pc.toNat →
      step s = .next { s0 with status := .faulted (.outOfBounds (max s.pc.toNat 4096)) }) ∧
    (s.pc.toNat ≤ 0xFFE → decodeWord (s.wordAt s.pc.toNat) = none →
      step s = .next { s0 with status := .faulted (.decodeError (s.wordAt s.pc.toNat) s.pc) })

/-- A block that is not Running stays as it is under any number of steps, as long as the host constructs no new block
and, while a key wait is in progress, delivers no keypad change (R91, R220, R240; D3, D9, logs 1 and 16). It uses no
port (R250): no random byte is drawn and no strobe is given (logs 10 and 12), the timers move by the host's ticks alone
(R254, R255, R258; D16, log 11), the keypad changes by the host's hand alone, and the host's actions leave its queue in
order (log 11). -/
def Obligations.SuspendedOrDeadBlockNeverMoves : Prop :=
  ∀ (k : Nat) (s : State), s.status ≠ .running →
    (∀ a ∈ s.hostActs, a = .step ∨ a = .tick ∨ a = .readDisplay ∨ (Faulted s ∧ ∃ keys, a = .setKeypad keys)) →
    ∃ t : State, Host.Core.run Sys2Proof.core k s = .next t ∧ SameBlock s t ∧ t.status = s.status ∧
      t.stepDones = s.stepDones ∧ t.randAnswers = s.randAnswers ∧ t.randDraws = s.randDraws ∧
      t.hostActs = s.hostActs.drop k ∧
      t.dt.toNat = s.dt.toNat - (s.hostActs.take k).count .tick ∧
      t.st.toNat = s.st.toNat - (s.hostActs.take k).count .tick ∧
      ((∀ keys, .setKeypad keys ∉ s.hostActs.take k) → t.keys = s.keys)

/-- Every instruction answers a next state in every state: none is privileged, none is refused (R247; D17, log 22). -/
def Obligations.EveryInstructionIsExecutable : Prop :=
  ∀ (i : Instr) (s : State), ∃ t, exec i s = .next t

/-- A step is refused where the host constructs a block from an image of more than 3584 bytes, and answers a next state
in every other case (R242, R281; the refusal is the model's choice, log 21). -/
def Obligations.OnlyAnOversizedImageIsRefused : Prop :=
  ∀ s : State,
    (∀ p image rest, s.hostActs = .construct p image :: rest → 3584 < image.length →
      step s = .refused (.imageTooLarge image.length)) ∧
    ((∀ p image rest, s.hostActs = .construct p image :: rest → image.length ≤ 3584) → ∃ t, step s = .next t)

/-- A requested step that raises an error leaves the state it was served in, with the error recorded and nothing else
changed (R92, R240; the precise state is the spec's decision D3, log 1; the queue, log 11). -/
def Obligations.ErrorsArePrecise : Prop :=
  ∀ (s s0 t : State) (e : Error), s.status = .running → StepRequested s s0 → step s = .next t →
    t.status = .faulted e → t = { s0 with status := .faulted e }

/-- A requested step of a Running block raises the error E exactly for the causes of R241, in the order of R243, and no
other condition raises one (D4, D8, D25, logs 2 and 15; the queue, log 11). That CALL overflows with more than the 16
entries R29 and R241 speak of, which no run reaches, is the model's reading, log 23. -/
def Obligations.ErrorsHaveExactlyTheListedCauses : Prop :=
  ∀ s s0 : State, s.status = .running → StepRequested s s0 →
    ∃ t, step s = .next t ∧
      ∀ e, t.status = .faulted e ↔
        (0xFFE < s.pc.toNat ∧ e = .outOfBounds (max s.pc.toNat 4096)) ∨
        (s.pc.toNat ≤ 0xFFE ∧ decodeWord (s.wordAt s.pc.toNat) = none ∧
          e = .decodeError (s.wordAt s.pc.toNat) s.pc) ∨
        (∃ i, s.pc.toNat ≤ 0xFFE ∧ decodeWord (s.wordAt s.pc.toNat) = some i ∧ OwnError i s e)

/-! ## Control transfer -/

/-- R102: the word 1nnn is JP; it sets PC to its address and nothing else; from 0xFFF the next fetch raises
OutOfBounds(0x1000). -/
def Obligations.JpSetsPc : Prop :=
  ∀ (addr : Addr) (s : State), decodeWord (fmtNNN 0x1#4 addr) = some (.jp addr) ∧ ∃ t, exec (.jp addr) s = .next t ∧
    t.pc.toNat = addr.toNat ∧ t = { s with pc := t.pc } ∧ SameMemory s t ∧
    (addr = 0xFFF#12 → s.status = .running → ∀ t0, StepRequested t t0 →
      ∃ u, step t = .next u ∧ u.status = .faulted (.outOfBounds 0x1000))

/-- R112: JP V0 sets PC to the address plus V0, never wrapping and never reduced to the address space; a target past
0xFFE makes the next fetch raise OutOfBounds (D4, D5, log 2). -/
def Obligations.JpV0AddsV0WithoutWrapping : Prop :=
  ∀ (addr : Addr) (s : State), ∃ t, exec (.jpV0 addr) s = .next t ∧
    t.pc.toNat = addr.toNat + (s.getV 0#4).toNat ∧ t = { s with pc := t.pc } ∧ SameMemory s t ∧
    (0xFFE < t.pc.toNat → s.status = .running → ∀ t0, StepRequested t t0 →
      ∃ u, step t = .next u ∧ u.status = .faulted (.outOfBounds (max t.pc.toNat 4096)))

/-- The word 2nnn is CALL; it pushes the address after it and jumps; with 16 entries present it raises StackOverflow,
nothing is pushed and PC stays (R103). That a Faulted block keeps its registers and memory is the spec's decision D3,
log 1; that more than 16 entries, which no run reaches, overflow too is the model's, log 23. -/
def Obligations.CallPushesTheReturnAddress : Prop :=
  ∀ (addr : Addr) (s : State),
    decodeWord (fmtNNN 0x2#4 addr) = some (.call addr) ∧
    (s.stack.length < 16 → ∃ t, exec (.call addr) s = .next t ∧
      t.stack = s.stack ++ [s.pc + 2#16] ∧ t.pc.toNat = addr.toNat ∧
      t = { s with pc := t.pc, stack := t.stack } ∧ SameMemory s t) ∧
    (16 ≤ s.stack.length → ∃ t, exec (.call addr) s = .next t ∧ t.status = .faulted .stackOverflow ∧
      t.stack = s.stack ∧ t.pc = s.pc ∧ SameMemory s t ∧ SameRegsExcept [] s t)

/-- R101: the word 00EE is RET; it takes the most recent entry off the stack and goes to it as it is, where the next
fetch raises OutOfBounds if that is past 0xFFE; on an empty stack it raises StackUnderflow. -/
def Obligations.RetGoesToThePoppedEntry : Prop :=
  ∀ s : State,
    decodeWord 0x00EE#16 = some .ret ∧
    (∀ rest w, s.stack = rest ++ [w] → ∃ t, exec .ret s = .next t ∧
      t.pc = w ∧ t.stack = rest ∧ t = { s with pc := t.pc, stack := t.stack } ∧ SameMemory s t ∧
      (0xFFE < w.toNat → s.status = .running → ∀ t0, StepRequested t t0 →
        ∃ u a, step t = .next u ∧ u.status = .faulted (.outOfBounds a))) ∧
    (s.stack = [] → ∃ t, exec .ret s = .next t ∧ t.status = .faulted .stackUnderflow)

/-- A RET in any state with the stack a CALL left goes to the instruction after the CALL and leaves the stack as it
was before it (R31, R101, R103). -/
def Obligations.RetUndoesCall : Prop :=
  ∀ (addr : Addr) (s u : State), s.stack.length < 16 →
    ∃ t, exec (.call addr) s = .next t ∧
      (u.stack = t.stack → ∃ r, exec .ret u = .next r ∧ r.pc = s.pc + 2#16 ∧ r.stack = s.stack)

/-- R104, R106, R108, R110: the words 3xkk, 4xkk, 5xy0 and 9xy0 are the skips; each goes past the next instruction
where its condition holds and to it where it does not, and changes nothing else; a fetched 5xyn or 9xyn with n not 0
raises DecodeError with the word and its address. -/
def Obligations.ComparingSkipsGoPastTheNextInstruction : Prop :=
  ∀ (x y : Nibble) (k : Byte) (s : State),
    decodeWord (fmtXKK 0x3#4 x k) = some (.seK x k) ∧ decodeWord (fmtXKK 0x4#4 x k) = some (.sneK x k) ∧
    decodeWord (fmtXYN 0x5#4 x y 0#4) = some (.seV x y) ∧ decodeWord (fmtXYN 0x9#4 x y 0#4) = some (.sneV x y) ∧
    (∃ t, exec (.seK x k) s = .next t ∧ t.pc = (if s.getV x = k then s.pc + 4#16 else s.pc + 2#16) ∧
      t = { s with pc := t.pc } ∧ SameMemory s t) ∧
    (∃ t, exec (.sneK x k) s = .next t ∧ t.pc = (if s.getV x = k then s.pc + 2#16 else s.pc + 4#16) ∧
      t = { s with pc := t.pc } ∧ SameMemory s t) ∧
    (∃ t, exec (.seV x y) s = .next t ∧ t.pc = (if s.getV x = s.getV y then s.pc + 4#16 else s.pc + 2#16) ∧
      t = { s with pc := t.pc } ∧ SameMemory s t) ∧
    (∃ t, exec (.sneV x y) s = .next t ∧ t.pc = (if s.getV x = s.getV y then s.pc + 2#16 else s.pc + 4#16) ∧
      t = { s with pc := t.pc } ∧ SameMemory s t) ∧
    ∀ (n : Nibble) (w : Word) (s0 : State), n ≠ 0#4 → w = fmtXYN 0x5#4 x y n ∨ w = fmtXYN 0x9#4 x y n →
      s.status = .running → StepRequested s s0 → s.pc.toNat ≤ 0xFFE → s.wordAt s.pc.toNat = w →
      ∃ t, step s = .next t ∧ t.status = .faulted (.decodeError w s.pc)

/-- Every instruction that raises no error leaves PC where R26 says: at its target, past the next instruction where a
skip is taken, else at its own address plus 2. That the sum of JP V0 is never wrapped is the spec's decision D5, log 2;
that Fx0A stands past itself from its entry on is D9, log 16. -/
def Obligations.PcGoesWhereTheRuleSays : Prop :=
  ∀ (i : Instr) (s t : State), s.status = .running → exec i s = .next t → ¬ Faulted t →
    (∀ addr, i = .jp addr ∨ i = .call addr → t.pc.toNat = addr.toNat) ∧
    (∀ addr, i = .jpV0 addr → t.pc.toNat = addr.toNat + (s.getV 0#4).toNat) ∧
    (i = .ret → s.stack.getLast? = some t.pc) ∧
    (isSkip i = true → t.pc = s.pc + 2#16 ∨ t.pc = s.pc + 4#16) ∧
    ((∀ addr, i ≠ .jp addr ∧ i ≠ .call addr ∧ i ≠ .jpV0 addr) → i ≠ .ret → isSkip i = false → t.pc = s.pc + 2#16)

/-! ## Registers and the arithmetic-logic family -/

/-- R130, R132, R141: the words 6xkk, 7xkk and 8xy0 are the two immediate forms and the register copy; they write their
destination, wrapping for the addition, and nothing else; VF is no flag of theirs, and is written only where it is the
destination. -/
def Obligations.PlainRegisterWritesTouchNoFlag : Prop :=
  ∀ (x y : Nibble) (k : Byte) (s : State),
    decodeWord (fmtXKK 0x6#4 x k) = some (.ldK x k) ∧ decodeWord (fmtXKK 0x7#4 x k) = some (.addK x k) ∧
    decodeWord (fmtXYN 0x8#4 x y 0#4) = some (.ldV x y) ∧
    (∃ t, exec (.ldK x k) s = .next t ∧ t.getV x = k ∧ SameRegsExcept [x] s t ∧ t.pc = s.pc + 2#16 ∧
      t = { s with pc := t.pc, v := t.v } ∧ SameMemory s t) ∧
    (∃ t, exec (.addK x k) s = .next t ∧ (t.getV x).toNat = ((s.getV x).toNat + k.toNat) % 256 ∧
      SameRegsExcept [x] s t ∧ t.pc = s.pc + 2#16 ∧ t = { s with pc := t.pc, v := t.v } ∧ SameMemory s t) ∧
    (∃ t, exec (.ldV x y) s = .next t ∧ t.getV x = s.getV y ∧ SameRegsExcept [x] s t ∧ t.pc = s.pc + 2#16 ∧
      t = { s with pc := t.pc, v := t.v } ∧ SameMemory s t)

/-- OR, AND and XOR combine the two registers bit by bit and set VF to 0, whatever VF held and wherever it was an
operand (R142 to R144). With x = 0xF VF ends as 0: the spec's decision D2, log 13. -/
def Obligations.LogicalOperationsClearVF : Prop :=
  ∀ (x y : Nibble) (s : State),
    (∃ t, exec (.or x y) s = .next t ∧ t.getV regF = 0#8 ∧
      (x ≠ regF → ∀ j, (t.getV x).getLsbD j = ((s.getV x).getLsbD j || (s.getV y).getLsbD j)) ∧
      SameRegsExcept [x, regF] s t ∧ t.pc = s.pc + 2#16 ∧ t = { s with pc := t.pc, v := t.v } ∧ SameMemory s t) ∧
    (∃ t, exec (.and x y) s = .next t ∧ t.getV regF = 0#8 ∧
      (x ≠ regF → ∀ j, (t.getV x).getLsbD j = ((s.getV x).getLsbD j && (s.getV y).getLsbD j)) ∧
      SameRegsExcept [x, regF] s t ∧ t.pc = s.pc + 2#16 ∧ t = { s with pc := t.pc, v := t.v } ∧ SameMemory s t) ∧
    (∃ t, exec (.xor x y) s = .next t ∧ t.getV regF = 0#8 ∧
      (x ≠ regF → ∀ j, (t.getV x).getLsbD j = ((s.getV x).getLsbD j ^^ (s.getV y).getLsbD j)) ∧
      SameRegsExcept [x, regF] s t ∧ t.pc = s.pc + 2#16 ∧ t = { s with pc := t.pc, v := t.v } ∧ SameMemory s t)

/-- ADD, SUB and SUBN store the sum or difference modulo 256 and set VF to the carry or to not-borrow of the operands
as they were before (R145, R146, R148). With x = 0xF VF ends as the flag: the spec's decision D2, log 13; the flag of
SUBN is the spec's reading, log 27. -/
def Obligations.SumsAndDifferencesSetVF : Prop :=
  ∀ (x y : Nibble) (s : State),
    (∃ t, exec (.addV x y) s = .next t ∧
      t.getV regF = (if 256 ≤ (s.getV x).toNat + (s.getV y).toNat then 1#8 else 0#8) ∧
      (x ≠ regF → (t.getV x).toNat = ((s.getV x).toNat + (s.getV y).toNat) % 256) ∧
      SameRegsExcept [x, regF] s t ∧ t.pc = s.pc + 2#16 ∧ t = { s with pc := t.pc, v := t.v } ∧ SameMemory s t) ∧
    (∃ t, exec (.sub x y) s = .next t ∧
      t.getV regF = (if (s.getV y).toNat ≤ (s.getV x).toNat then 1#8 else 0#8) ∧
      (x ≠ regF → ((t.getV x).toNat : Int) = ((s.getV x).toNat - (s.getV y).toNat : Int) % 256) ∧
      SameRegsExcept [x, regF] s t ∧ t.pc = s.pc + 2#16 ∧ t = { s with pc := t.pc, v := t.v } ∧ SameMemory s t) ∧
    (∃ t, exec (.subn x y) s = .next t ∧
      t.getV regF = (if (s.getV x).toNat ≤ (s.getV y).toNat then 1#8 else 0#8) ∧
      (x ≠ regF → ((t.getV x).toNat : Int) = ((s.getV y).toNat - (s.getV x).toNat : Int) % 256) ∧
      SameRegsExcept [x, regF] s t ∧ t.pc = s.pc + 2#16 ∧ t = { s with pc := t.pc, v := t.v } ∧ SameMemory s t)

/-- SHR and SHL halve or double V[y] into V[x] and set VF to the bit shifted out of V[y] (R147, R149). With x = 0xF VF
ends as that bit: the spec's decision D2, log 13. -/
def Obligations.ShiftsReadVyAndSetVF : Prop :=
  ∀ (x y : Nibble) (s : State),
    (∃ t, exec (.shr x y) s = .next t ∧ (t.getV regF).toNat = (s.getV y).toNat % 2 ∧
      (x ≠ regF → (t.getV x).toNat = (s.getV y).toNat / 2) ∧
      SameRegsExcept [x, regF] s t ∧ t.pc = s.pc + 2#16 ∧ t = { s with pc := t.pc, v := t.v } ∧ SameMemory s t) ∧
    (∃ t, exec (.shl x y) s = .next t ∧ (t.getV regF).toNat = (s.getV y).toNat / 128 ∧
      (x ≠ regF → (t.getV x).toNat = 2 * (s.getV y).toNat % 256) ∧
      SameRegsExcept [x, regF] s t ∧ t.pc = s.pc + 2#16 ∧ t = { s with pc := t.pc, v := t.v } ∧ SameMemory s t)

/-- No instruction changes a general register that is neither its destination nor, for a flag writer, VF (R21, R22).
Where it faults this rests on the spec's decision D3, log 1, and that Fx0A writes no register at its entry on D9,
log 16. -/
def Obligations.RegistersChangeOnlyWhereWritten : Prop :=
  ∀ (i : Instr) (s t : State) (r : Nibble), exec i s = .next t → ¬ mayWriteReg i r → t.getV r = s.getV r

/-- No instruction reads VF unless it names it (R22): run from two states that differ in VF alone, an instruction that
does not name VF gives the same state, but for VF itself where it does not write it. Where it faults this rests on the
spec's decision D3, log 1. -/
def Obligations.VFIsReadOnlyWhereNamed : Prop :=
  ∀ (i : Instr) (s : State) (b : Byte), s.status = .running → namesVF i = false →
    ∃ t, exec i s = .next t ∧
      (writesFlag i = true ∧ ¬ Faulted t → exec i (s.setV regF b) = .next t) ∧
      (¬ (writesFlag i = true ∧ ¬ Faulted t) → exec i (s.setV regF b) = .next (t.setV regF b))

/-! ## The index register and memory -/

/-- LD I loads the address, ADD I adds V[x] modulo 2^16, LD F gives 5 times the digit; none writes a flag (R170, R172,
R174). The wrap of ADD I is the spec's decision D6, log 14; above 0xF LD F gives what FONT_INDEX_HIGH says, as the host
chose it for this block or, where it left it open, whichever of its two values it has (R6, R261; D7, log 6). -/
def Obligations.IndexRegisterIsLoadedAndAdded : Prop :=
  ∀ (addr : Addr) (x : Nibble) (s : State),
    (∃ t, exec (.ldI addr) s = .next t ∧ t.i.toNat = addr.toNat ∧ t.pc = s.pc + 2#16 ∧
      t = { s with pc := t.pc, i := t.i } ∧ SameMemory s t) ∧
    (∃ t, exec (.addI x) s = .next t ∧ t.i.toNat = (s.i.toNat + (s.getV x).toNat) % 65536 ∧ t.pc = s.pc + 2#16 ∧
      t = { s with pc := t.pc, i := t.i } ∧ SameMemory s t) ∧
    (∃ t, exec (.ldF x) s = .next t ∧
      ((s.getV x).toNat ≤ 0xF → t.i.toNat = 5 * (s.getV x).toNat) ∧
      (0xF < (s.getV x).toNat → t.i.toNat = match s.fontHigh.getD Config.fontIndexHigh with
        | .unmasked => 5 * (s.getV x).toNat
        | .lowNibble => 5 * ((s.getV x).toNat % 16)) ∧
      t.pc = s.pc + 2#16 ∧ t = { s with pc := t.pc, i := t.i } ∧ SameMemory s t)

/-- LD B stores the hundreds, tens and ones of V[x] at I, I + 1 and I + 2, and changes no other byte; I stays (R176). -/
def Obligations.DecimalDigitsAreStored : Prop :=
  ∀ (x : Nibble) (s : State), s.mem.wf → s.i.toNat + 3 ≤ 4096 →
    ∃ t, exec (.ldB x) s = .next t ∧
      (s.getV x).toNat =
        100 * (t.mem.read s.i.toNat).toNat + 10 * (t.mem.read (s.i.toNat + 1)).toNat +
          (t.mem.read (s.i.toNat + 2)).toNat ∧
      (t.mem.read (s.i.toNat + 1)).toNat ≤ 9 ∧ (t.mem.read (s.i.toNat + 2)).toNat ≤ 9 ∧
      (∀ a, a < s.i.toNat ∨ s.i.toNat + 3 ≤ a → t.mem.read a = s.mem.read a) ∧
      t.pc = s.pc + 2#16 ∧ t = { s with pc := t.pc, mem := t.mem }

/-- LD [I] stores V[0..x] at I and up, and changes no other byte; I stays (R178; I unchanged is the spec's decision
D10, log 17). -/
def Obligations.RegistersAreStored : Prop :=
  ∀ (x : Nibble) (s : State), s.mem.wf → s.i.toNat + (x.toNat + 1) ≤ 4096 →
    ∃ t, exec (.stRegs x) s = .next t ∧
      (∀ r : Nibble, r.toNat ≤ x.toNat → t.mem.read (s.i.toNat + r.toNat) = s.getV r) ∧
      (∀ a, a < s.i.toNat ∨ s.i.toNat + (x.toNat + 1) ≤ a → t.mem.read a = s.mem.read a) ∧
      t.pc = s.pc + 2#16 ∧ t = { s with pc := t.pc, mem := t.mem }

/-- LD Vx loads V[0..x] from I and up, leaves the registers above x, and changes no memory; I stays (R180; D10,
log 17). -/
def Obligations.RegistersAreLoaded : Prop :=
  ∀ (x : Nibble) (s : State), s.i.toNat + (x.toNat + 1) ≤ 4096 →
    ∃ t, exec (.ldRegs x) s = .next t ∧
      (∀ r : Nibble, t.getV r = if r.toNat ≤ x.toNat then s.mem.read (s.i.toNat + r.toNat) else s.getV r) ∧
      t.pc = s.pc + 2#16 ∧ t = { s with pc := t.pc, v := t.v } ∧ SameMemory s t

/-- A block store and a block load at the same I with the same x bring every register from V0 to Vx back, whatever the
registers held in between (R178, R180). -/
def Obligations.BlockLoadUndoesBlockStore : Prop :=
  ∀ (x : Nibble) (s u : State), s.mem.wf → s.i.toNat + (x.toNat + 1) ≤ 4096 →
    ∃ t, exec (.stRegs x) s = .next t ∧
      (u.mem = t.mem → u.i = s.i → ∃ r, exec (.ldRegs x) u = .next r ∧
        ∀ q : Nibble, q.toNat ≤ x.toNat → r.getV q = s.getV q)

/-- An instruction whose data range reaches past 0xFFF raises OutOfBounds before it writes anything (R58, R176, R178,
R180, R196; the recorded address and the precise state are the spec's decisions D4 and D3, logs 2 and 1). -/
def Obligations.DataRangePastTheEndIsRejectedWhole : Prop :=
  ∀ (i : Instr) (len : Nat) (s : State), dataLength i = some len → 4096 < s.i.toNat + len →
    exec i s = .next { s with status := .faulted (.outOfBounds (max s.i.toNat 4096)) }

/-- No instruction changes a byte of memory outside the bytes it stores from I upwards; one that stores nothing changes
none (R57). Where it faults this rests on the spec's decision D3, log 1. -/
def Obligations.MemoryChangesOnlyWhereStored : Prop :=
  ∀ (i : Instr) (s t : State), s.mem.wf → exec i s = .next t →
    ∀ a, a < s.i.toNat ∨ s.i.toNat + storeLength i ≤ a → t.mem.read a = s.mem.read a

/-- Two memories in canonical form that read alike at every address are equal: equal memories are equal data. -/
def Obligations.CanonicalMemoriesThatReadAlikeAreEqual : Prop :=
  ∀ m n : Memory, m.wf → n.wf → (∀ a, m.read a = n.read a) → m = n

/-- A block store over the bytes of the next instruction is seen by the very next fetch (R63, R286). The host's queue,
in which that fetch must be requested, and the count of strobes are the model's own (logs 11 and 12). -/
def Obligations.TheNextFetchSeesAStore : Prop :=
  ∀ (x : Nibble) (s : State), s.mem.wf → s.status = .running → 1 ≤ x.toNat →
    s.pc.toNat ≤ 0xFFC → s.i = s.pc + 2#16 → s.i.toNat + (x.toNat + 1) ≤ 4096 →
    ∃ t, exec (.stRegs x) s = .next t ∧
      ∀ i t0 u, decodeWord (wordOfBytes (s.getV 0#4) (s.getV 1#4)) = some i → StepRequested t t0 →
        exec i t0 = .next u →
        step t = .next (if u.status = .running then { u with stepDones := u.stepDones + 1 } else u)

/-! ## The display -/

/-- R190: the word 00E0 is CLS; it unsets every pixel and changes nothing else; VF is not written. -/
def Obligations.ClsUnsetsEveryPixel : Prop :=
  decodeWord 0x00E0#16 = some .cls ∧ ∀ s : State, ∃ t, exec .cls s = .next t ∧
    (∀ c r, c < 64 → r < 32 → t.disp.pixel c r = false) ∧
    t.pc = s.pc + 2#16 ∧ t = { s with pc := t.pc, disp := t.disp } ∧ SameMemory s t

/-- With the sprite inside memory, DRW inverts exactly the grid pixels under a set bit of the sprite, whose origin is the
signed coordinate pair wrapped into the grid and whose bits outside the grid are dropped; VF is 1 where one of them was
set before, else 0 (R191, R192, R194, R195). That a sprite of no rows runs at I = 4096 is the spec's resolution C7,
log 2; that with x or y = 0xF the coordinate is read before the flag is written is D2, log 13; that the draw completes
in its own step is D11, log 18. -/
def Obligations.DrwXorsTheWrappedAndClippedSprite : Prop :=
  ∀ (x y n : Nibble) (s : State), s.i.toNat + n.toNat ≤ 4096 →
    ∃ t, exec (.drw x y n) s = .next t ∧
      let ox := ((s.getV x).toInt % 64).toNat
      let oy := ((s.getV y).toInt % 32).toNat
      let rows := s.mem.readBytes s.i.toNat n.toNat
      (∀ c r, c < 64 → r < 32 → t.disp.pixel c r = (s.disp.pixel c r ^^ spriteBit ox oy rows c r)) ∧
      (t.getV regF = 1#8 ∨ t.getV regF = 0#8) ∧
      (t.getV regF = 1#8 ↔
        ∃ c r, c < 64 ∧ r < 32 ∧ spriteBit ox oy rows c r = true ∧ s.disp.pixel c r = true) ∧
      SameRegsExcept [regF] s t ∧ t.pc = s.pc + 2#16 ∧
      t = { s with pc := t.pc, v := t.v, disp := t.disp } ∧ SameMemory s t

/-- Drawing the same sprite at the same origin twice restores the display, and the second draw reports a collision
exactly where the first one set a pixel that was unset (R197). The two draws have one origin where neither coordinate
register is VF, which the first draw writes. A sprite of no rows at I = 4096 runs by the spec's resolution C7, log 2;
no draw waits, D11, log 18. -/
def Obligations.DrawingTwiceRestoresTheDisplay : Prop :=
  ∀ (x y n : Nibble) (s : State), s.i.toNat + n.toNat ≤ 4096 → x ≠ regF → y ≠ regF →
    ∃ t u, exec (.drw x y n) s = .next t ∧ exec (.drw x y n) t = .next u ∧ u.disp = s.disp ∧
      (u.getV regF = 1#8 ↔ ∃ c r, s.disp.pixel c r = false ∧ t.disp.pixel c r = true)

/-- Only the low 6 bits of V[x] and the low 5 bits of V[y] matter to a draw: coordinates that agree in them give the
same display and the same VF (R193, R197). A sprite of no rows at I = 4096 runs by the spec's resolution C7, log 2; no
draw waits, D11, log 18. -/
def Obligations.OriginsWrapIntoTheGrid : Prop :=
  ∀ (x y n : Nibble) (s : State) (cx cy : Byte), x ≠ y → s.i.toNat + n.toNat ≤ 4096 →
    cx.toNat % 64 = (s.getV x).toNat % 64 → cy.toNat % 32 = (s.getV y).toNat % 32 →
    ∃ t u, exec (.drw x y n) s = .next t ∧ exec (.drw x y n) ((s.setV x cx).setV y cy) = .next u ∧
      u.disp = t.disp ∧ u.getV regF = t.getV regF

/-- A sprite of no rows draws nothing and sets VF to 0, also with I = 4096, where no byte is read (R198; the reading
of the precondition is conflict C7 of the spec, log 2). No draw waits, D11, log 18. -/
def Obligations.ZeroRowSpriteOnlyClearsVF : Prop :=
  ∀ (x y : Nibble) (s : State), s.i.toNat ≤ 4096 →
    ∃ t, exec (.drw x y 0#4) s = .next t ∧ t.getV regF = 0#8 ∧ SameRegsExcept [regF] s t ∧ t.pc = s.pc + 2#16 ∧
      t = { s with pc := t.pc, v := t.v } ∧ SameMemory s t

/-! ## Random bytes, keys and timers -/

/-- RND stores the answer of the random source masked with k: the bits clear in k are clear in the result for every
answer; where the source's answers are fixed the result is the next of them masked, else it is the next free byte
masked, of which nothing is known (R210, R252; D20, the answers
as a queue and as free values are the model's choice, log 10). -/
def Obligations.RndMasksAnyRandomByte : Prop :=
  ∀ (x : Nibble) (k : Byte) (s : State),
    ∃ t, exec (.rnd x k) s = .next t ∧
      t.getV x &&& ~~~k = 0#8 ∧
      (∀ b rest, s.randAnswers = b :: rest → t.getV x = b &&& k ∧ t.randAnswers = rest ∧ t.randDraws = s.randDraws) ∧
      (s.randAnswers = [] → t.getV x = Config.randomByte s.randDraws &&& k ∧ t.randAnswers = [] ∧
        t.randDraws = s.randDraws + 1) ∧
      SameRegsExcept [x] s t ∧ t.pc = s.pc + 2#16 ∧
      t = { s with pc := t.pc, v := t.v, randAnswers := t.randAnswers, randDraws := t.randDraws } ∧ SameMemory s t

/-- SKP skips where the key V[x] is down, SKNP where it is not; a key number above 0xF raises InvalidKey and leaves all
else as it was (R212, R214, R253). That the key is read as the level of the keypad vector at this step is the spec's
decision D27, log 28; the error is its decision D8, log 15; the state the error leaves is its decision D3, log 1
(R92, R240). -/
def Obligations.KeySkipsReadTheKeypadLevel : Prop :=
  ∀ (x : Nibble) (s : State),
    ((s.getV x).toNat ≤ 0xF →
      (∃ t, exec (.skp x) s = .next t ∧
        t.pc = (if s.keys.getLsbD (s.getV x).toNat then s.pc + 4#16 else s.pc + 2#16) ∧
        t = { s with pc := t.pc } ∧ SameMemory s t) ∧
      (∃ t, exec (.sknp x) s = .next t ∧
        t.pc = (if s.keys.getLsbD (s.getV x).toNat then s.pc + 2#16 else s.pc + 4#16) ∧
        t = { s with pc := t.pc } ∧ SameMemory s t)) ∧
    (0xF < (s.getV x).toNat →
      exec (.skp x) s = .next { s with status := .faulted (.invalidKey (s.getV x)) } ∧
      exec (.sknp x) s = .next { s with status := .faulted (.invalidKey (s.getV x)) })

/-- LD Vx, DT reads the delay timer, LD DT and LD ST write the timers, and each changes nothing else (R216, R226,
R228). That ticks come between steps, never inside one, is the spec's decision D16, log 11; that a write of ST makes no
sound in the model is D26, log 26. -/
def Obligations.TimersAreReadAndWritten : Prop :=
  ∀ (x : Nibble) (s : State),
    (∃ t, exec (.ldVDt x) s = .next t ∧ t.getV x = s.dt ∧ SameRegsExcept [x] s t ∧ t.pc = s.pc + 2#16 ∧
      t = { s with pc := t.pc, v := t.v } ∧ SameMemory s t) ∧
    (∃ t, exec (.ldDtV x) s = .next t ∧ t.dt = s.getV x ∧ t.pc = s.pc + 2#16 ∧
      t = { s with pc := t.pc, dt := t.dt } ∧ SameMemory s t) ∧
    (∃ t, exec (.ldStV x) s = .next t ∧ t.st = s.getV x ∧ t.pc = s.pc + 2#16 ∧
      t = { s with pc := t.pc, st := t.st } ∧ SameMemory s t)

/-- No instruction reads the sound timer (R35, R255, R259): run from two states that differ in ST alone, an instruction
gives states that differ in ST alone, and the one that writes ST gives the same state. Where it faults this rests on
the spec's decision D3, log 1. -/
def Obligations.NoInstructionReadsTheSoundTimer : Prop :=
  ∀ (i : Instr) (s : State) (b : Byte), ∃ t, exec i s = .next t ∧
    ((∃ x, i = .ldStV x) → exec i { s with st := b } = .next t) ∧
    ((∀ x, i ≠ .ldStV x) → exec i { s with st := b } = .next { t with st := b })

/-- LD Vx, K suspends the block: Status becomes WaitKey with the destination and the keypad as it stands, PC is past the
instruction, and nothing else changes (R222; D9, log 16). -/
def Obligations.KeyWaitIsEntered : Prop :=
  ∀ (x : Nibble) (s : State), ∃ t, exec (.ldVK x) s = .next t ∧ t.status = .waitKey x s.keys ∧ t.pc = s.pc + 2#16 ∧
    t = { s with pc := t.pc, status := t.status } ∧ SameMemory s t

/-- A keypad change during a key wait completes it where some key of the last sample is no longer pressed, with the
lowest-numbered one in V[x], Status Running and one strobe; otherwise the wait goes on from the new sample (R223,
R224; the lowest of several keys is the spec's decision D9, log 16). -/
def Obligations.KeyWaitCompletesOnARelease : Prop :=
  ∀ (x : Nibble) (prev now : Keypad) (rest : List HostAction) (s : State), s.status = .waitKey x prev →
    s.hostActs = .setKeypad now :: rest →
    ((∀ k : Nat, prev.getLsbD k = true → now.getLsbD k = true) →
      step s = .next { s with hostActs := rest, keys := now, status := .waitKey x now }) ∧
    ∀ key : Nat, prev.getLsbD key = true → now.getLsbD key = false →
      (∀ j < key, prev.getLsbD j = true → now.getLsbD j = true) →
      ∃ t, step s = .next t ∧ (t.getV x).toNat = key ∧ SameRegsExcept [x] s t ∧ SameMemory s t ∧
        t = { s with hostActs := rest, keys := now, v := t.v, status := .running, stepDones := s.stepDones + 1 }

/-- Any number of ticks takes that number from both timers and stops at zero; they change nothing of the block, in
whatever status it is (R258; D16, log 11). -/
def Obligations.TicksCountTimersDownToZero : Prop :=
  ∀ (k : Nat) (rest : List HostAction) (s : State), s.hostActs = List.replicate k .tick ++ rest →
    ∃ t : State, Host.Core.run Sys2Proof.core k s = .next t ∧ t.dt.toNat = s.dt.toNat - k ∧
      t.st.toNat = s.st.toNat - k ∧ t = { s with hostActs := rest, dt := t.dt, st := t.st }

/-! ## The host -/

/-- Construct leaves the reset state (R37, R55, R280) with the OPEN parameters the host chooses (R6, R261): PC at 0x200,
the stack empty, Status Running, the registers, the display, the timers and FONT_INDEX_HIGH at those parameters, and
memory holding the image from 0x200, the font below 0x50, and MEM_INIT elsewhere. That the environment's other state
stays is the model's choice, log 21; so is, log 4, that a MEM_INIT shorter than memory reads 0x00 past its end. -/
def Obligations.ConstructLeavesTheResetState : Prop :=
  ∀ (p : InitParams) (image : List Byte) (rest : List HostAction) (s : State),
    s.hostActs = .construct p image :: rest → image.length ≤ 3584 →
    ∃ t, step s = .next t ∧ t.pc = 0x200#16 ∧ t.stack = [] ∧ t.status = .running ∧
      t.v = p.v ∧ t.i = p.i ∧ t.disp = p.disp ∧ t.dt = p.dt ∧ t.st = p.st ∧ t.fontHigh = p.fontHigh ∧ t.mem.wf ∧
      (∀ j (hj : j < image.length), t.mem.read (0x200 + j) = image[j]) ∧
      (∀ a (ha : a < 80), t.mem.read a = p.font[a]) ∧
      (∀ a, 80 ≤ a → a < 0x200 ∨ 0x200 + image.length ≤ a → a < 4096 → t.mem.read a = (p.mem[a]?).getD 0#8) ∧
      t.hostActs = rest ∧ t.keys = s.keys ∧ t.randAnswers = s.randAnswers ∧ t.randDraws = s.randDraws ∧
      t.stepDones = s.stepDones

/-- State.reset has the values R37 gives, PC 0x200, an empty stack, Status Running and the glyph of digit d at 5 times d
(bytes by the reference FONT, PRESUMED, log 5), and is what a construction from an empty image with the reference
parameters leaves of the block and the timers (the values of the OPEN parameters are the model's choice, logs 3, 4, 6, 7
and 8). The construction leaves the environment's other state as it stood: the keypad, the host's queue, the random
source's two fields and the count of strobes stay those of the state it is made in, not of State.reset (the model's
choice, log 21). -/
def Obligations.ResetIsTheConstructionOfAnEmptyImage : Prop :=
  State.reset.pc = 0x200#16 ∧ State.reset.stack = [] ∧ State.reset.status = .running ∧
  (∀ a (ha : a < 80), State.reset.mem.read a = fontBytes[a]) ∧
  ∀ s : State, construct InitParams.reference [] s = .next
    { State.reset with keys := s.keys, hostActs := s.hostActs, randAnswers := s.randAnswers, randDraws := s.randDraws,
                       stepDones := s.stepDones }

/-- The host's actions other than Step and Construct write nothing of the block, except that a keypad change during a
key wait takes it on or completes it (R251, R256, R260; D9 and D22, logs 16 and 22; what it then does to V[x] and Status
is KeyWaitCompletesOnARelease). A keypad change replaces the keypad vector, and outside a key wait it changes nothing
else (R260); a tick changes nothing but the timers (R258; D16, log 11; by how much is TicksCountTimersDownToZero); a
read-out changes nothing (R256). The queue that holds the actions is the model's, log 11. -/
def Obligations.HostActionsDoNotWriteTheBlock : Prop :=
  ∀ (a : HostAction) (rest : List HostAction) (s : State), s.hostActs = a :: rest →
    (a = .tick ∨ a = .readDisplay ∨ ∃ keys, a = .setKeypad keys) →
    ∃ t, step s = .next t ∧ t.i = s.i ∧ t.pc = s.pc ∧ t.stack = s.stack ∧ t.mem = s.mem ∧ t.disp = s.disp ∧
      t.fontHigh = s.fontHigh ∧ t.hostActs = rest ∧ t.randAnswers = s.randAnswers ∧ t.randDraws = s.randDraws ∧
      ((∀ keys, a ≠ .setKeypad keys) ∨ (∀ x k0, s.status ≠ .waitKey x k0) →
        SameBlock s t ∧ t.status = s.status ∧ t.stepDones = s.stepDones) ∧
      (∀ keys, a = .setKeypad keys → t.keys = keys ∧ t.dt = s.dt ∧ t.st = s.st ∧
        ((∀ x k0, s.status ≠ .waitKey x k0) → t = { s with hostActs := rest, keys := keys })) ∧
      (a = .tick → t = { s with hostActs := rest, dt := t.dt, st := t.st }) ∧
      (a = .readDisplay → t = { s with hostActs := rest })

/-! ## Whole-machine rules -/

/-- Each piece of state but PC, which every instruction writes (R26), is changed by the instructions the spec lists as
its writers and by no other: the general registers, I, the stack, the display, memory, the timers and Status (R21, R22,
R25, R28, R32, R36, R57, R259), and the random source (R210, R252; its two fields are the model's, log 10). PC too stays
where the instruction faults (D3, log 1). No instruction changes the keypad, which is the host's (R253, R260), the
construction parameter FONT_INDEX_HIGH (R6; log 6), or the model's own queue and count of strobes, which is counted at
the end of the step (R93; logs 11 and 12). -/
def Obligations.EachPieceOfStateHasItsWriters : Prop :=
  ∀ (i : Instr) (s t : State), s.status = .running → exec i s = .next t →
    (∀ r, t.getV r ≠ s.getV r → mayWriteReg i r ∧ ¬ Faulted t) ∧
    (t.pc ≠ s.pc → ¬ Faulted t) ∧
    (t.i ≠ s.i → (∃ addr, i = .ldI addr) ∨ ∃ x, i = .addI x ∨ i = .ldF x) ∧
    (t.stack ≠ s.stack → i = .ret ∨ ∃ addr, i = .call addr) ∧
    (t.disp ≠ s.disp → i = .cls ∨ ∃ x y n, i = .drw x y n) ∧
    (t.mem ≠ s.mem → ∃ x, i = .ldB x ∨ i = .stRegs x) ∧
    (t.dt ≠ s.dt → ∃ x, i = .ldDtV x) ∧ (t.st ≠ s.st → ∃ x, i = .ldStV x) ∧
    (t.randAnswers ≠ s.randAnswers ∨ t.randDraws ≠ s.randDraws → ∃ x k, i = .rnd x k) ∧
    (t.status ≠ .running → (∃ x, i = .ldVK x) ∨ Faulted t) ∧
    t.keys = s.keys ∧ t.fontHigh = s.fontHigh ∧ t.hostActs = s.hostActs ∧ t.stepDones = s.stepDones

/-- A block halted by convention, Running before a jump to itself, stays there under any number of steps, as long as the
host only requests steps, with nothing changed but the count of strobes and the requests taken off the queue (R94, R292;
D19; the count and the queue are the model's choice, logs 12 and 11). -/
def Obligations.SelfJumpOnlyStrobes : Prop :=
  ∀ (k : Nat) (s : State), Halted s → (∀ a ∈ s.hostActs, a = .step) →
    Host.Core.run Sys2Proof.core k s =
      .next { s with hostActs := s.hostActs.drop k, stepDones := s.stepDones + k }

/-- The state after reset meets the invariant. -/
def Obligations.ResetMeetsTheInvariant : Prop := State.reset.Inv

/-- Every step keeps the invariant: memory stays canonical, the stack within 16 entries each at most 0x1000 (R27, R28),
PC at most 0x10FE (R27), a key wait stands after its Fx0A with the keypad as last sampled (R222, R223), and a recorded
error is justified by the word at PC and its operands (R92, R241). The clause on the key wait rests on the spec's
decision D9, log 16, and those on a recorded error on D3, D4 and D8, logs 1, 2 and 15; the canonical form of memory is
the model's, log 4. -/
def Obligations.StepKeepsTheInvariant : Prop :=
  ∀ s t : State, s.Inv → step s = .next t → t.Inv
end

