-- ==== Sys2Proof/Laws/State.lean ====
section
/-! SUPPORT. One lemma per field per update of the state: what each operation writes and what it leaves. -/

namespace Sys2Proof.Machine

@[simp] theorem State.reset_pc : State.reset.pc = 0x200#16 := rfl
@[simp] theorem State.reset_stack : State.reset.stack = [] := rfl
@[simp] theorem State.reset_mem : State.reset.mem = [] := rfl
@[simp] theorem State.reset_status : State.reset.status = .running := rfl
@[simp] theorem State.reset_fontHigh : State.reset.fontHigh = none := rfl
@[simp] theorem State.reset_hostActs : State.reset.hostActs = [] := rfl

variable (s : State)

@[simp] theorem State.advance_v : (s.advance).v = s.v := rfl
@[simp] theorem State.advance_i : (s.advance).i = s.i := rfl
@[simp] theorem State.advance_pc : (s.advance).pc = s.pc + 2#16 := rfl
@[simp] theorem State.advance_stack : (s.advance).stack = s.stack := rfl
@[simp] theorem State.advance_mem : (s.advance).mem = s.mem := rfl
@[simp] theorem State.advance_disp : (s.advance).disp = s.disp := rfl
@[simp] theorem State.advance_status : (s.advance).status = s.status := rfl
@[simp] theorem State.advance_fontHigh : (s.advance).fontHigh = s.fontHigh := rfl
@[simp] theorem State.advance_dt : (s.advance).dt = s.dt := rfl
@[simp] theorem State.advance_st : (s.advance).st = s.st := rfl
@[simp] theorem State.advance_keys : (s.advance).keys = s.keys := rfl
@[simp] theorem State.advance_hostActs : (s.advance).hostActs = s.hostActs := rfl
@[simp] theorem State.advance_randAnswers : (s.advance).randAnswers = s.randAnswers := rfl
@[simp] theorem State.advance_randDraws : (s.advance).randDraws = s.randDraws := rfl
@[simp] theorem State.advance_stepDones : (s.advance).stepDones = s.stepDones := rfl

@[simp] theorem State.setPc_v (w : Word) : (s.setPc w).v = s.v := rfl
@[simp] theorem State.setPc_i (w : Word) : (s.setPc w).i = s.i := rfl
@[simp] theorem State.setPc_pc (w : Word) : (s.setPc w).pc = w := rfl
@[simp] theorem State.setPc_stack (w : Word) : (s.setPc w).stack = s.stack := rfl
@[simp] theorem State.setPc_mem (w : Word) : (s.setPc w).mem = s.mem := rfl
@[simp] theorem State.setPc_disp (w : Word) : (s.setPc w).disp = s.disp := rfl
@[simp] theorem State.setPc_status (w : Word) : (s.setPc w).status = s.status := rfl
@[simp] theorem State.setPc_fontHigh (w : Word) : (s.setPc w).fontHigh = s.fontHigh := rfl
@[simp] theorem State.setPc_dt (w : Word) : (s.setPc w).dt = s.dt := rfl
@[simp] theorem State.setPc_st (w : Word) : (s.setPc w).st = s.st := rfl
@[simp] theorem State.setPc_keys (w : Word) : (s.setPc w).keys = s.keys := rfl
@[simp] theorem State.setPc_hostActs (w : Word) : (s.setPc w).hostActs = s.hostActs := rfl
@[simp] theorem State.setPc_randAnswers (w : Word) : (s.setPc w).randAnswers = s.randAnswers := rfl
@[simp] theorem State.setPc_randDraws (w : Word) : (s.setPc w).randDraws = s.randDraws := rfl
@[simp] theorem State.setPc_stepDones (w : Word) : (s.setPc w).stepDones = s.stepDones := rfl

@[simp] theorem State.setI_v (w : Word) : (s.setI w).v = s.v := rfl
@[simp] theorem State.setI_i (w : Word) : (s.setI w).i = w := rfl
@[simp] theorem State.setI_pc (w : Word) : (s.setI w).pc = s.pc := rfl
@[simp] theorem State.setI_stack (w : Word) : (s.setI w).stack = s.stack := rfl
@[simp] theorem State.setI_mem (w : Word) : (s.setI w).mem = s.mem := rfl
@[simp] theorem State.setI_disp (w : Word) : (s.setI w).disp = s.disp := rfl
@[simp] theorem State.setI_status (w : Word) : (s.setI w).status = s.status := rfl
@[simp] theorem State.setI_fontHigh (w : Word) : (s.setI w).fontHigh = s.fontHigh := rfl
@[simp] theorem State.setI_dt (w : Word) : (s.setI w).dt = s.dt := rfl
@[simp] theorem State.setI_st (w : Word) : (s.setI w).st = s.st := rfl
@[simp] theorem State.setI_keys (w : Word) : (s.setI w).keys = s.keys := rfl
@[simp] theorem State.setI_hostActs (w : Word) : (s.setI w).hostActs = s.hostActs := rfl
@[simp] theorem State.setI_randAnswers (w : Word) : (s.setI w).randAnswers = s.randAnswers := rfl
@[simp] theorem State.setI_randDraws (w : Word) : (s.setI w).randDraws = s.randDraws := rfl
@[simp] theorem State.setI_stepDones (w : Word) : (s.setI w).stepDones = s.stepDones := rfl

@[simp] theorem State.setV_i (r : Nibble) (b : Byte) : (s.setV r b).i = s.i := rfl
@[simp] theorem State.setV_pc (r : Nibble) (b : Byte) : (s.setV r b).pc = s.pc := rfl
@[simp] theorem State.setV_stack (r : Nibble) (b : Byte) : (s.setV r b).stack = s.stack := rfl
@[simp] theorem State.setV_mem (r : Nibble) (b : Byte) : (s.setV r b).mem = s.mem := rfl
@[simp] theorem State.setV_disp (r : Nibble) (b : Byte) : (s.setV r b).disp = s.disp := rfl
@[simp] theorem State.setV_status (r : Nibble) (b : Byte) : (s.setV r b).status = s.status := rfl
@[simp] theorem State.setV_fontHigh (r : Nibble) (b : Byte) : (s.setV r b).fontHigh = s.fontHigh := rfl
@[simp] theorem State.setV_dt (r : Nibble) (b : Byte) : (s.setV r b).dt = s.dt := rfl
@[simp] theorem State.setV_st (r : Nibble) (b : Byte) : (s.setV r b).st = s.st := rfl
@[simp] theorem State.setV_keys (r : Nibble) (b : Byte) : (s.setV r b).keys = s.keys := rfl
@[simp] theorem State.setV_hostActs (r : Nibble) (b : Byte) : (s.setV r b).hostActs = s.hostActs := rfl
@[simp] theorem State.setV_randAnswers (r : Nibble) (b : Byte) : (s.setV r b).randAnswers = s.randAnswers := rfl
@[simp] theorem State.setV_randDraws (r : Nibble) (b : Byte) : (s.setV r b).randDraws = s.randDraws := rfl
@[simp] theorem State.setV_stepDones (r : Nibble) (b : Byte) : (s.setV r b).stepDones = s.stepDones := rfl

@[simp] theorem State.loadRegs_i (x : Nibble) (base : Nat) : (s.loadRegs x base).i = s.i := rfl
@[simp] theorem State.loadRegs_pc (x : Nibble) (base : Nat) : (s.loadRegs x base).pc = s.pc := rfl
@[simp] theorem State.loadRegs_stack (x : Nibble) (base : Nat) : (s.loadRegs x base).stack = s.stack := rfl
@[simp] theorem State.loadRegs_mem (x : Nibble) (base : Nat) : (s.loadRegs x base).mem = s.mem := rfl
@[simp] theorem State.loadRegs_disp (x : Nibble) (base : Nat) : (s.loadRegs x base).disp = s.disp := rfl
@[simp] theorem State.loadRegs_status (x : Nibble) (base : Nat) : (s.loadRegs x base).status = s.status := rfl
@[simp] theorem State.loadRegs_fontHigh (x : Nibble) (base : Nat) : (s.loadRegs x base).fontHigh = s.fontHigh := rfl
@[simp] theorem State.loadRegs_dt (x : Nibble) (base : Nat) : (s.loadRegs x base).dt = s.dt := rfl
@[simp] theorem State.loadRegs_st (x : Nibble) (base : Nat) : (s.loadRegs x base).st = s.st := rfl
@[simp] theorem State.loadRegs_keys (x : Nibble) (base : Nat) : (s.loadRegs x base).keys = s.keys := rfl
@[simp] theorem State.loadRegs_hostActs (x : Nibble) (base : Nat) : (s.loadRegs x base).hostActs = s.hostActs := rfl
@[simp] theorem State.loadRegs_randAnswers (x : Nibble) (base : Nat) : (s.loadRegs x base).randAnswers = s.randAnswers := rfl
@[simp] theorem State.loadRegs_randDraws (x : Nibble) (base : Nat) : (s.loadRegs x base).randDraws = s.randDraws := rfl
@[simp] theorem State.loadRegs_stepDones (x : Nibble) (base : Nat) : (s.loadRegs x base).stepDones = s.stepDones := rfl

@[simp] theorem State.writeResultFlag_i (x : Nibble) (r f : Byte) : (s.writeResultFlag x r f).i = s.i := rfl
@[simp] theorem State.writeResultFlag_pc (x : Nibble) (r f : Byte) : (s.writeResultFlag x r f).pc = s.pc := rfl
@[simp] theorem State.writeResultFlag_stack (x : Nibble) (r f : Byte) : (s.writeResultFlag x r f).stack = s.stack := rfl
@[simp] theorem State.writeResultFlag_mem (x : Nibble) (r f : Byte) : (s.writeResultFlag x r f).mem = s.mem := rfl
@[simp] theorem State.writeResultFlag_disp (x : Nibble) (r f : Byte) : (s.writeResultFlag x r f).disp = s.disp := rfl
@[simp] theorem State.writeResultFlag_status (x : Nibble) (r f : Byte) : (s.writeResultFlag x r f).status = s.status := rfl
@[simp] theorem State.writeResultFlag_fontHigh (x : Nibble) (r f : Byte) : (s.writeResultFlag x r f).fontHigh = s.fontHigh := rfl
@[simp] theorem State.writeResultFlag_dt (x : Nibble) (r f : Byte) : (s.writeResultFlag x r f).dt = s.dt := rfl
@[simp] theorem State.writeResultFlag_st (x : Nibble) (r f : Byte) : (s.writeResultFlag x r f).st = s.st := rfl
@[simp] theorem State.writeResultFlag_keys (x : Nibble) (r f : Byte) : (s.writeResultFlag x r f).keys = s.keys := rfl
@[simp] theorem State.writeResultFlag_hostActs (x : Nibble) (r f : Byte) : (s.writeResultFlag x r f).hostActs = s.hostActs := rfl
@[simp] theorem State.writeResultFlag_randAnswers (x : Nibble) (r f : Byte) : (s.writeResultFlag x r f).randAnswers = s.randAnswers := rfl
@[simp] theorem State.writeResultFlag_randDraws (x : Nibble) (r f : Byte) : (s.writeResultFlag x r f).randDraws = s.randDraws := rfl
@[simp] theorem State.writeResultFlag_stepDones (x : Nibble) (r f : Byte) : (s.writeResultFlag x r f).stepDones = s.stepDones := rfl

@[simp] theorem State.dtWrite_v (b : Byte) : (s.dtWrite b).v = s.v := rfl
@[simp] theorem State.dtWrite_i (b : Byte) : (s.dtWrite b).i = s.i := rfl
@[simp] theorem State.dtWrite_pc (b : Byte) : (s.dtWrite b).pc = s.pc := rfl
@[simp] theorem State.dtWrite_stack (b : Byte) : (s.dtWrite b).stack = s.stack := rfl
@[simp] theorem State.dtWrite_mem (b : Byte) : (s.dtWrite b).mem = s.mem := rfl
@[simp] theorem State.dtWrite_disp (b : Byte) : (s.dtWrite b).disp = s.disp := rfl
@[simp] theorem State.dtWrite_status (b : Byte) : (s.dtWrite b).status = s.status := rfl
@[simp] theorem State.dtWrite_fontHigh (b : Byte) : (s.dtWrite b).fontHigh = s.fontHigh := rfl
@[simp] theorem State.dtWrite_dt (b : Byte) : (s.dtWrite b).dt = b := rfl
@[simp] theorem State.dtWrite_st (b : Byte) : (s.dtWrite b).st = s.st := rfl
@[simp] theorem State.dtWrite_keys (b : Byte) : (s.dtWrite b).keys = s.keys := rfl
@[simp] theorem State.dtWrite_hostActs (b : Byte) : (s.dtWrite b).hostActs = s.hostActs := rfl
@[simp] theorem State.dtWrite_randAnswers (b : Byte) : (s.dtWrite b).randAnswers = s.randAnswers := rfl
@[simp] theorem State.dtWrite_randDraws (b : Byte) : (s.dtWrite b).randDraws = s.randDraws := rfl
@[simp] theorem State.dtWrite_stepDones (b : Byte) : (s.dtWrite b).stepDones = s.stepDones := rfl

@[simp] theorem State.stWrite_v (b : Byte) : (s.stWrite b).v = s.v := rfl
@[simp] theorem State.stWrite_i (b : Byte) : (s.stWrite b).i = s.i := rfl
@[simp] theorem State.stWrite_pc (b : Byte) : (s.stWrite b).pc = s.pc := rfl
@[simp] theorem State.stWrite_stack (b : Byte) : (s.stWrite b).stack = s.stack := rfl
@[simp] theorem State.stWrite_mem (b : Byte) : (s.stWrite b).mem = s.mem := rfl
@[simp] theorem State.stWrite_disp (b : Byte) : (s.stWrite b).disp = s.disp := rfl
@[simp] theorem State.stWrite_status (b : Byte) : (s.stWrite b).status = s.status := rfl
@[simp] theorem State.stWrite_fontHigh (b : Byte) : (s.stWrite b).fontHigh = s.fontHigh := rfl
@[simp] theorem State.stWrite_dt (b : Byte) : (s.stWrite b).dt = s.dt := rfl
@[simp] theorem State.stWrite_st (b : Byte) : (s.stWrite b).st = b := rfl
@[simp] theorem State.stWrite_keys (b : Byte) : (s.stWrite b).keys = s.keys := rfl
@[simp] theorem State.stWrite_hostActs (b : Byte) : (s.stWrite b).hostActs = s.hostActs := rfl
@[simp] theorem State.stWrite_randAnswers (b : Byte) : (s.stWrite b).randAnswers = s.randAnswers := rfl
@[simp] theorem State.stWrite_randDraws (b : Byte) : (s.stWrite b).randDraws = s.randDraws := rfl
@[simp] theorem State.stWrite_stepDones (b : Byte) : (s.stWrite b).stepDones = s.stepDones := rfl

@[simp] theorem State.strobe_v : (s.strobe).v = s.v := rfl
@[simp] theorem State.strobe_i : (s.strobe).i = s.i := rfl
@[simp] theorem State.strobe_pc : (s.strobe).pc = s.pc := rfl
@[simp] theorem State.strobe_stack : (s.strobe).stack = s.stack := rfl
@[simp] theorem State.strobe_mem : (s.strobe).mem = s.mem := rfl
@[simp] theorem State.strobe_disp : (s.strobe).disp = s.disp := rfl
@[simp] theorem State.strobe_status : (s.strobe).status = s.status := rfl
@[simp] theorem State.strobe_fontHigh : (s.strobe).fontHigh = s.fontHigh := rfl
@[simp] theorem State.strobe_dt : (s.strobe).dt = s.dt := rfl
@[simp] theorem State.strobe_st : (s.strobe).st = s.st := rfl
@[simp] theorem State.strobe_keys : (s.strobe).keys = s.keys := rfl
@[simp] theorem State.strobe_hostActs : (s.strobe).hostActs = s.hostActs := rfl
@[simp] theorem State.strobe_randAnswers : (s.strobe).randAnswers = s.randAnswers := rfl
@[simp] theorem State.strobe_randDraws : (s.strobe).randDraws = s.randDraws := rfl
@[simp] theorem State.strobe_stepDones : (s.strobe).stepDones = s.stepDones + 1 := rfl

@[simp] theorem State.tick_v : (s.tick).v = s.v := rfl
@[simp] theorem State.tick_i : (s.tick).i = s.i := rfl
@[simp] theorem State.tick_pc : (s.tick).pc = s.pc := rfl
@[simp] theorem State.tick_stack : (s.tick).stack = s.stack := rfl
@[simp] theorem State.tick_mem : (s.tick).mem = s.mem := rfl
@[simp] theorem State.tick_disp : (s.tick).disp = s.disp := rfl
@[simp] theorem State.tick_status : (s.tick).status = s.status := rfl
@[simp] theorem State.tick_fontHigh : (s.tick).fontHigh = s.fontHigh := rfl
@[simp] theorem State.tick_dt : (s.tick).dt = tickTimer s.dt := rfl
@[simp] theorem State.tick_st : (s.tick).st = tickTimer s.st := rfl
@[simp] theorem State.tick_keys : (s.tick).keys = s.keys := rfl
@[simp] theorem State.tick_hostActs : (s.tick).hostActs = s.hostActs := rfl
@[simp] theorem State.tick_randAnswers : (s.tick).randAnswers = s.randAnswers := rfl
@[simp] theorem State.tick_randDraws : (s.tick).randDraws = s.randDraws := rfl
@[simp] theorem State.tick_stepDones : (s.tick).stepDones = s.stepDones := rfl

@[simp] theorem State.skipIf_v (c : Bool) : (s.skipIf c).v = s.v := by cases c <;> rfl
@[simp] theorem State.skipIf_i (c : Bool) : (s.skipIf c).i = s.i := by cases c <;> rfl
@[simp] theorem State.skipIf_pc (c : Bool) : (s.skipIf c).pc = if c then s.pc + 2#16 else s.pc := by cases c <;> rfl
@[simp] theorem State.skipIf_stack (c : Bool) : (s.skipIf c).stack = s.stack := by cases c <;> rfl
@[simp] theorem State.skipIf_mem (c : Bool) : (s.skipIf c).mem = s.mem := by cases c <;> rfl
@[simp] theorem State.skipIf_disp (c : Bool) : (s.skipIf c).disp = s.disp := by cases c <;> rfl
@[simp] theorem State.skipIf_status (c : Bool) : (s.skipIf c).status = s.status := by cases c <;> rfl
@[simp] theorem State.skipIf_fontHigh (c : Bool) : (s.skipIf c).fontHigh = s.fontHigh := by cases c <;> rfl
@[simp] theorem State.skipIf_dt (c : Bool) : (s.skipIf c).dt = s.dt := by cases c <;> rfl
@[simp] theorem State.skipIf_st (c : Bool) : (s.skipIf c).st = s.st := by cases c <;> rfl
@[simp] theorem State.skipIf_keys (c : Bool) : (s.skipIf c).keys = s.keys := by cases c <;> rfl
@[simp] theorem State.skipIf_hostActs (c : Bool) : (s.skipIf c).hostActs = s.hostActs := by cases c <;> rfl
@[simp] theorem State.skipIf_randAnswers (c : Bool) : (s.skipIf c).randAnswers = s.randAnswers := by cases c <;> rfl
@[simp] theorem State.skipIf_randDraws (c : Bool) : (s.skipIf c).randDraws = s.randDraws := by cases c <;> rfl
@[simp] theorem State.skipIf_stepDones (c : Bool) : (s.skipIf c).stepDones = s.stepDones := by cases c <;> rfl

@[simp] theorem State.endStep_v : (s.endStep).v = s.v := by unfold State.endStep; split <;> rfl
@[simp] theorem State.endStep_i : (s.endStep).i = s.i := by unfold State.endStep; split <;> rfl
@[simp] theorem State.endStep_pc : (s.endStep).pc = s.pc := by unfold State.endStep; split <;> rfl
@[simp] theorem State.endStep_stack : (s.endStep).stack = s.stack := by unfold State.endStep; split <;> rfl
@[simp] theorem State.endStep_mem : (s.endStep).mem = s.mem := by unfold State.endStep; split <;> rfl
@[simp] theorem State.endStep_disp : (s.endStep).disp = s.disp := by unfold State.endStep; split <;> rfl
@[simp] theorem State.endStep_status : (s.endStep).status = s.status := by unfold State.endStep; split <;> rfl
@[simp] theorem State.endStep_fontHigh : (s.endStep).fontHigh = s.fontHigh := by unfold State.endStep; split <;> rfl
@[simp] theorem State.endStep_dt : (s.endStep).dt = s.dt := by unfold State.endStep; split <;> rfl
@[simp] theorem State.endStep_st : (s.endStep).st = s.st := by unfold State.endStep; split <;> rfl
@[simp] theorem State.endStep_keys : (s.endStep).keys = s.keys := by unfold State.endStep; split <;> rfl
@[simp] theorem State.endStep_hostActs : (s.endStep).hostActs = s.hostActs := by unfold State.endStep; split <;> rfl
@[simp] theorem State.endStep_randAnswers : (s.endStep).randAnswers = s.randAnswers := by unfold State.endStep; split <;> rfl
@[simp] theorem State.endStep_randDraws : (s.endStep).randDraws = s.randDraws := by unfold State.endStep; split <;> rfl
@[simp] theorem State.endStep_stepDones : (s.endStep).stepDones = if s.status = .running then s.stepDones + 1 else s.stepDones := by unfold State.endStep; split <;> rfl

@[simp] theorem State.afterRand_v : (s.afterRand).v = s.v := by unfold State.afterRand; split <;> rfl
@[simp] theorem State.afterRand_i : (s.afterRand).i = s.i := by unfold State.afterRand; split <;> rfl
@[simp] theorem State.afterRand_pc : (s.afterRand).pc = s.pc := by unfold State.afterRand; split <;> rfl
@[simp] theorem State.afterRand_stack : (s.afterRand).stack = s.stack := by unfold State.afterRand; split <;> rfl
@[simp] theorem State.afterRand_mem : (s.afterRand).mem = s.mem := by unfold State.afterRand; split <;> rfl
@[simp] theorem State.afterRand_disp : (s.afterRand).disp = s.disp := by unfold State.afterRand; split <;> rfl
@[simp] theorem State.afterRand_status : (s.afterRand).status = s.status := by unfold State.afterRand; split <;> rfl
@[simp] theorem State.afterRand_fontHigh : (s.afterRand).fontHigh = s.fontHigh := by unfold State.afterRand; split <;> rfl
@[simp] theorem State.afterRand_dt : (s.afterRand).dt = s.dt := by unfold State.afterRand; split <;> rfl
@[simp] theorem State.afterRand_st : (s.afterRand).st = s.st := by unfold State.afterRand; split <;> rfl
@[simp] theorem State.afterRand_keys : (s.afterRand).keys = s.keys := by unfold State.afterRand; split <;> rfl
@[simp] theorem State.afterRand_hostActs : (s.afterRand).hostActs = s.hostActs := by unfold State.afterRand; split <;> rfl
@[simp] theorem State.afterRand_stepDones : (s.afterRand).stepDones = s.stepDones := by unfold State.afterRand; split <;> rfl

end Sys2Proof.Machine
end

