-- ==== Sys2Proof/Laws/Control.lean ====
section
/-! SUPPORT. What the shared operations can answer: the range check, the call stack, raising an error, fetching an
instruction, and the end of a step. Each says once everything its operation can do. -/

namespace Sys2Proof.Machine

theorem toNat_zextAddr (addr : Addr) : (zextAddr addr).toNat = addr.toNat := by
  have := addr.isLt
  simp [zextAddr]; omega

/-- The target of JP V0 stays below 2^16 (R27). -/
theorem toNat_zextAddr_add_zextByte (addr : Addr) (b : Byte) :
    (zextAddr addr + zextByte b).toNat = addr.toNat + b.toNat := by
  have := addr.isLt; have := b.isLt
  simp [zextAddr, zextByte]; omega

/-- PC after an advance and after a skip, from an address that was fetched from (R27). -/
theorem toNat_pc_add {w : Word} (h : w.toNat ≤ 0xFFE) :
    (w + 2#16).toNat = w.toNat + 2 ∧ (w + 4#16).toNat = w.toNat + 4 := by
  constructor <;> (rw [BitVec.toNat_add]; simp; omega)

/-- An advance and a skip make 4. -/
theorem pc_add_add (w : Word) : w + 2#16 + 2#16 = w + 4#16 := by rw [BitVec.add_assoc]; rfl

theorem checkRange_eq_none {base len : Nat} : checkRange base len = none ↔ base + len ≤ 4096 := by
  unfold checkRange; split <;> simp_all

theorem checkRange_eq_some {base len : Nat} {e : Error} :
    checkRange base len = some e ↔ 4096 < base + len ∧ e = .outOfBounds (max base 4096) := by
  unfold checkRange; split <;> simp_all [eq_comm]

theorem push_eq_ok {stack out : List Word} {w : Word} :
    push stack w = .ok out ↔ stack.length < 16 ∧ out = stack ++ [w] := by
  unfold push; split <;> simp_all [eq_comm]

theorem push_eq_error {stack : List Word} {w : Word} {e : Error} :
    push stack w = .error e ↔ 16 ≤ stack.length ∧ e = .stackOverflow := by
  unfold push; split <;> simp_all [eq_comm]

theorem pop_concat (stack : List Word) (w : Word) : pop (stack ++ [w]) = .ok (w, stack) := by
  simp [pop]

theorem pop_nil : pop [] = .error .stackUnderflow := rfl

theorem pop_eq_ok {stack rest : List Word} {w : Word} :
    pop stack = .ok (w, rest) ↔ stack = rest ++ [w] := by
  constructor
  · intro h
    rcases List.eq_nil_or_concat stack with rfl | ⟨l, a, rfl⟩
    · simp [pop_nil] at h
    · rw [List.concat_eq_append, pop_concat] at h
      simp only [Except.ok.injEq, Prod.mk.injEq] at h
      rw [List.concat_eq_append, h.1, h.2]
  · rintro rfl; exact pop_concat rest w

theorem pop_eq_error {stack : List Word} {e : Error} :
    pop stack = .error e ↔ stack = [] ∧ e = .stackUnderflow := by
  rcases List.eq_nil_or_concat stack with rfl | ⟨l, a, rfl⟩
  · simp [pop_nil, eq_comm]
  · simp [pop_concat]

/-- The stack law (R31): a pop after a push gives the entry back and the stack as before. -/
theorem pop_of_push {stack out : List Word} {w : Word} (h : push stack w = .ok out) : pop out = .ok (w, stack) :=
  pop_eq_ok.2 (push_eq_ok.1 h).2

@[simp] theorem raise_eq (e : Error) (s : State) : raise e s = .next { s with status := .faulted e } := rfl

theorem fetchInstr_eq_ok {s : State} {i : Instr} :
    fetchInstr s = .ok i ↔ s.pc.toNat ≤ 0xFFE ∧ decodeWord (s.wordAt s.pc.toNat) = some i := by
  unfold fetchInstr
  split
  · rename_i e he
    have := (checkRange_eq_some.1 he).1
    simp; intro; omega
  · rename_i he
    have h : s.pc.toNat ≤ 0xFFE := by have := checkRange_eq_none.1 he; omega
    split <;> simp [*]

theorem fetchInstr_eq_error {s : State} {e : Error} :
    fetchInstr s = .error e ↔
      (0xFFE < s.pc.toNat ∧ e = .outOfBounds (max s.pc.toNat 4096)) ∨
      (s.pc.toNat ≤ 0xFFE ∧ decodeWord (s.wordAt s.pc.toNat) = none ∧
        e = .decodeError (s.wordAt s.pc.toNat) s.pc) := by
  unfold fetchInstr
  split
  · rename_i e' he
    obtain ⟨h1, rfl⟩ := checkRange_eq_some.1 he
    have h : 0xFFE < s.pc.toNat := by omega
    simp [h, Nat.not_le.2 h, eq_comm]
  · rename_i he
    have h : s.pc.toNat ≤ 0xFFE := by have := checkRange_eq_none.1 he; omega
    split <;> simp [Nat.not_lt.2 h, eq_comm, *]

@[simp] theorem finish_next (s : State) : finish (.next s) = .next s.endStep := rfl

theorem finish_eq_next {r : Result} {t : State} : finish r = .next t ↔ ∃ s, r = .next s ∧ t = s.endStep := by
  cases r <;> simp [finish, eq_comm]

@[simp] theorem State.endStep_running {s : State} (h : s.status = .running) : s.endStep = s.strobe := by
  simp [State.endStep, h]

/-- What one step can be: a step request, or one of the host's other actions. -/
theorem step_cases (s : State) :
    (s.hostActs = [] ∧ step s = stepRequest s) ∨
      ∃ a rest, s.hostActs = a :: rest ∧ step s = hostAct a { s with hostActs := rest } := by
  unfold step
  cases s.hostActs <;> simp

/-- What a step request can be: the fetched instruction with the end of the step, an error of the fetch raised in
the state before the step, or nothing at all. -/
theorem stepRequest_cases (s : State) :
    (s.status = .running ∧ ∃ i, fetchInstr s = .ok i ∧ stepRequest s = finish (exec i s)) ∨
      (s.status = .running ∧ ∃ e, fetchInstr s = .error e ∧ stepRequest s = raise e s) ∨
      (s.status ≠ .running ∧ stepRequest s = .next s) := by
  unfold stepRequest
  split
  · rename_i h
    unfold runInstr
    cases hf : fetchInstr s <;> simp [h]
  · simp_all
  · simp_all

/-- A step request to a block that is not Running changes nothing (R91). -/
theorem stepRequest_of_not_running {s : State} (h : s.status ≠ .running) : stepRequest s = .next s := by
  unfold stepRequest; split <;> simp_all

theorem step_of_no_hostActs {s : State} (h : s.hostActs = []) : step s = stepRequest s := by simp [step, h]

theorem step_of_hostActs {s : State} {a : HostAction} {rest : List HostAction} (h : s.hostActs = a :: rest) :
    step s = hostAct a { s with hostActs := rest } := by simp [step, h]

/-- A run of k + 1 steps whose first step answers a next state is a run of k steps from there. -/
theorem run_succ {s t : State} (k : Nat) (h : step s = .next t) :
    Host.Core.run Sys2Proof.core (k + 1) s = Host.Core.run Sys2Proof.core k t := by
  have h' : Sys2Proof.core.step s = .next t := h
  simp only [Host.Core.run, h']

end Sys2Proof.Machine
end

