-- ==== Sys2Proof/Laws/Decode.lean ====
section
/-! SUPPORT. The fields of a word and the formats of spec/30_encoding.md R73 as numbers; the fields of a word built in
a format, and a word rebuilt from its fields. -/

namespace Sys2Proof

theorem toNat_append_eq {m n : Nat} (a : BitVec m) (b : BitVec n) :
    (a ++ b).toNat = a.toNat * 2 ^ n + b.toNat := by
  rw [BitVec.toNat_append, ← Nat.shiftLeft_add_eq_or_of_lt b.isLt, Nat.shiftLeft_eq]

theorem toNat_extract_eq {m : Nat} (w : BitVec m) (lo len : Nat) :
    (w.extractLsb' lo len).toNat = w.toNat / 2 ^ lo % 2 ^ len := by
  rw [BitVec.extractLsb'_toNat, Nat.shiftRight_eq_div_pow]

theorem toNat_opOf (w : Word) : (opOf w).toNat = w.toNat / 4096 % 16 := toNat_extract_eq w 12 4

theorem toNat_xOf (w : Word) : (xOf w).toNat = w.toNat / 256 % 16 := toNat_extract_eq w 8 4

theorem toNat_yOf (w : Word) : (yOf w).toNat = w.toNat / 16 % 16 := toNat_extract_eq w 4 4

theorem toNat_nOf (w : Word) : (nOf w).toNat = w.toNat % 16 :=
  (toNat_extract_eq w 0 4).trans (by rw [Nat.pow_zero, Nat.div_one]; rfl)

theorem toNat_kOf (w : Word) : (kOf w).toNat = w.toNat % 256 :=
  (toNat_extract_eq w 0 8).trans (by rw [Nat.pow_zero, Nat.div_one]; rfl)

theorem toNat_addrOf (w : Word) : (addrOf w).toNat = w.toNat % 4096 :=
  (toNat_extract_eq w 0 12).trans (by rw [Nat.pow_zero, Nat.div_one]; rfl)

theorem toNat_hiByte (w : Word) : (hiByte w).toNat = w.toNat / 256 % 256 := toNat_extract_eq w 8 8

theorem toNat_loByte (w : Word) : (loByte w).toNat = w.toNat % 256 :=
  (toNat_extract_eq w 0 8).trans (by rw [Nat.pow_zero, Nat.div_one]; rfl)

theorem toNat_wordOfBytes (hi lo : Byte) : (wordOfBytes hi lo).toNat = hi.toNat * 256 + lo.toNat :=
  toNat_append_eq hi lo

theorem toNat_fmtNNN (op : Nibble) (addr : Addr) : (fmtNNN op addr).toNat = op.toNat * 4096 + addr.toNat :=
  toNat_append_eq op addr

theorem toNat_fmtXKK (op x : Nibble) (k : Byte) :
    (fmtXKK op x k).toNat = op.toNat * 4096 + (x.toNat * 256 + k.toNat) := by
  rw [← show (x ++ k).toNat = x.toNat * 256 + k.toNat from toNat_append_eq x k]
  exact toNat_append_eq op (x ++ k)

theorem toNat_fmtXYN (op x y n : Nibble) :
    (fmtXYN op x y n).toNat = op.toNat * 4096 + (x.toNat * 256 + (y.toNat * 16 + n.toNat)) := by
  rw [← show (y ++ n).toNat = y.toNat * 16 + n.toNat from toNat_append_eq y n,
    ← show (x ++ (y ++ n)).toNat = x.toNat * 256 + (y ++ n).toNat from toNat_append_eq x (y ++ n)]
  exact toNat_append_eq op (x ++ (y ++ n))

@[simp] theorem opOf_fmtNNN (op : Nibble) (addr : Addr) : opOf (fmtNNN op addr) = op := by
  apply BitVec.eq_of_toNat_eq; rw [toNat_opOf, toNat_fmtNNN]; omega

@[simp] theorem addrOf_fmtNNN (op : Nibble) (addr : Addr) : addrOf (fmtNNN op addr) = addr := by
  apply BitVec.eq_of_toNat_eq; rw [toNat_addrOf, toNat_fmtNNN]; omega

@[simp] theorem opOf_fmtXKK (op x : Nibble) (k : Byte) : opOf (fmtXKK op x k) = op := by
  apply BitVec.eq_of_toNat_eq; rw [toNat_opOf, toNat_fmtXKK]; omega

@[simp] theorem xOf_fmtXKK (op x : Nibble) (k : Byte) : xOf (fmtXKK op x k) = x := by
  apply BitVec.eq_of_toNat_eq; rw [toNat_xOf, toNat_fmtXKK]; omega

@[simp] theorem kOf_fmtXKK (op x : Nibble) (k : Byte) : kOf (fmtXKK op x k) = k := by
  apply BitVec.eq_of_toNat_eq; rw [toNat_kOf, toNat_fmtXKK]; omega

@[simp] theorem opOf_fmtXYN (op x y n : Nibble) : opOf (fmtXYN op x y n) = op := by
  apply BitVec.eq_of_toNat_eq; rw [toNat_opOf, toNat_fmtXYN]; omega

@[simp] theorem xOf_fmtXYN (op x y n : Nibble) : xOf (fmtXYN op x y n) = x := by
  apply BitVec.eq_of_toNat_eq; rw [toNat_xOf, toNat_fmtXYN]; omega

@[simp] theorem yOf_fmtXYN (op x y n : Nibble) : yOf (fmtXYN op x y n) = y := by
  apply BitVec.eq_of_toNat_eq; rw [toNat_yOf, toNat_fmtXYN]; omega

@[simp] theorem nOf_fmtXYN (op x y n : Nibble) : nOf (fmtXYN op x y n) = n := by
  apply BitVec.eq_of_toNat_eq; rw [toNat_nOf, toNat_fmtXYN]; omega

/-- A word is its op and its 12-bit address field. -/
theorem fmtNNN_fields (w : Word) : fmtNNN (opOf w) (addrOf w) = w := by
  apply BitVec.eq_of_toNat_eq; rw [toNat_fmtNNN, toNat_opOf, toNat_addrOf]; omega

/-- A word is its op, its x and its immediate byte. -/
theorem fmtXKK_fields (w : Word) : fmtXKK (opOf w) (xOf w) (kOf w) = w := by
  apply BitVec.eq_of_toNat_eq; rw [toNat_fmtXKK, toNat_opOf, toNat_xOf, toNat_kOf]; omega

/-- A word is its four nibbles. -/
theorem fmtXYN_fields (w : Word) : fmtXYN (opOf w) (xOf w) (yOf w) (nOf w) = w := by
  apply BitVec.eq_of_toNat_eq; rw [toNat_fmtXYN, toNat_opOf, toNat_xOf, toNat_yOf, toNat_nOf]; omega

/-- A word laid out in memory order is read back big-endian (R56). -/
@[simp] theorem wordOfBytes_bytes (w : Word) : wordOfBytes (hiByte w) (loByte w) = w := by
  apply BitVec.eq_of_toNat_eq; rw [toNat_wordOfBytes, toNat_hiByte, toNat_loByte]; omega

end Sys2Proof
end

