-- ==== Sys2Proof/Laws/Display.lean ====
section
/-! SUPPORT. What the XOR plot does, pixel by pixel: a bit, a row, a whole sprite. -/

namespace Sys2Proof.Machine

theorem Display.ext_pixel {d e : Display}
    (h : ∀ c r, c < 64 → r < 32 → d.pixel c r = e.pixel c r) : d = e := by
  apply Vector.ext; intro r hr
  apply Vector.ext; intro c hc
  have := h c r hc hr
  simpa [Display.pixel, hr, hc] using this

@[simp] theorem Display.pixel_outside (d : Display) {c r : Nat}
    (h : ¬ (r < 32 ∧ c < 64)) : d.pixel c r = false := dif_neg h

@[simp] theorem Display.pixel_clear (c r : Nat) : Display.clear.pixel c r = false := by
  unfold Display.pixel Display.clear; split <;> simp

/-- A flip inverts one pixel of the grid and no other. -/
theorem Display.pixel_flip (d : Display) {c r : Nat} (hr : r < 32) (hc : c < 64)
    (c' r' : Nat) :
    (d.flip c r).pixel c' r' = if c' = c ∧ r' = r then !d.pixel c r else d.pixel c' r' := by
  unfold Display.flip
  rw [dif_pos ⟨hr, hc⟩]
  unfold Display.pixel
  by_cases h' : r' < 32 ∧ c' < 64
  · simp only [h', and_self, dite_true, hr, hc]
    by_cases h1 : r' = r
    · subst h1
      by_cases h2 : c' = c
      · subst h2; simp
      · simp [h2, Ne.symm h2]
    · simp [h1, Ne.symm h1]
  · have : ¬ (c' = c ∧ r' = r) := by rintro ⟨rfl, rfl⟩; exact h' ⟨hr, hc⟩
    simp [h', this]

theorem plotBit_eq (px py : Nat) (bit : Bool) (acc : Display × Bool) :
    plotBit px py bit acc =
      if 64 ≤ px ∨ 32 ≤ py then acc
      else if bit then (acc.1.flip px py, acc.2 || acc.1.pixel px py) else acc := rfl

/-- A sprite bit changes the pixel it lands on, if that is in the grid. -/
theorem pixel_plotBit (px py : Nat) (bit : Bool) (acc : Display × Bool) {c r : Nat} (hc : c < 64)
    (hr : r < 32) :
    (plotBit px py bit acc).1.pixel c r = (acc.1.pixel c r ^^ (bit && (c = px ∧ r = py))) := by
  rw [plotBit_eq]
  split
  · rename_i h
    have : ¬ (c = px ∧ r = py) := by rintro ⟨rfl, rfl⟩; omega
    simp [this]
  · rename_i h
    cases bit
    · simp
    · simp only [if_true, Bool.true_and]
      rw [Display.pixel_flip acc.1 (by omega) (by omega)]
      by_cases h2 : c = px ∧ r = py
      · obtain ⟨rfl, rfl⟩ := h2; simp
      · simp [h2]

/-- A sprite bit collides where it lands on a set pixel. -/
theorem collide_plotBit (px py : Nat) (bit : Bool) (acc : Display × Bool) :
    (plotBit px py bit acc).2 = (acc.2 || (bit && acc.1.pixel px py)) := by
  rw [plotBit_eq]
  split
  · rename_i h
    rw [Display.pixel_outside _ (by omega)]; simp
  · cases bit <;> simp

/-- The first m bits of a sprite row: each lands on a pixel of its own. -/
theorem plotRow_upTo (ox py : Nat) (row : Byte) (acc : Display × Bool) (m : Nat) :
    let out := (List.range m).foldl (fun acc c => plotBit (ox + c) py (row.getLsbD (7 - c)) acc) acc
    (∀ c r, c < 64 → r < 32 →
      out.1.pixel c r = (acc.1.pixel c r ^^
        decide (r = py ∧ ox ≤ c ∧ c < ox + m ∧ row.getLsbD (7 - (c - ox)) = true))) ∧
    (out.2 = true ↔ acc.2 = true ∨
      ∃ k < m, row.getLsbD (7 - k) = true ∧ acc.1.pixel (ox + k) py = true) := by
  induction m with
  | zero =>
    refine ⟨fun c r _ _ => ?_, by simp⟩
    have h : ¬ (r = py ∧ ox ≤ c ∧ c < ox + 0 ∧ row.getLsbD (7 - (c - ox)) = true) := by
      rintro ⟨-, h1, h2, -⟩; omega
    rw [decide_eq_false h, Bool.xor_false]; rfl
  | succ m ih =>
    obtain ⟨ihp, ihc⟩ := ih
    simp only [List.range_succ, List.foldl_append, List.foldl_cons, List.foldl_nil]
    refine ⟨fun c r hc hr => ?_, ?_⟩
    · rw [pixel_plotBit _ _ _ _ hc hr, ihp c r hc hr, Bool.xor_assoc]
      congr 1
      by_cases hr' : r = py
      · by_cases hm : c = ox + m
        · subst hm; subst hr'
          simp
        · have h1 : (c < ox + (m + 1)) ↔ (c < ox + m) := by omega
          simp [hr', hm, h1]
      · simp [hr']
    · rw [collide_plotBit, Bool.or_eq_true, ihc, Bool.and_eq_true]
      have old : (((List.range m).foldl (fun acc c => plotBit (ox + c) py (row.getLsbD (7 - c)) acc) acc).1.pixel
          (ox + m) py) = acc.1.pixel (ox + m) py := by
        by_cases h : py < 32 ∧ ox + m < 64
        · rw [ihp _ _ h.2 h.1]; simp
        · rw [Display.pixel_outside _ h, Display.pixel_outside _ h]
      rw [old]
      constructor
      · rintro ((h | ⟨k, hk, h⟩) | h)
        · exact .inl h
        · exact .inr ⟨k, by omega, h⟩
        · exact .inr ⟨m, by omega, h⟩
      · rintro (h | ⟨k, hk, h⟩)
        · exact .inl (.inl h)
        · rcases Nat.lt_succ_iff_lt_or_eq.1 hk with hk | rfl
          · exact .inl (.inr ⟨k, hk, h⟩)
          · exact .inr h

/-- One sprite row: every pixel is XORed with the row's bit over it. -/
theorem pixel_plotRow (ox py : Nat) (row : Byte) (acc : Display × Bool) {c r : Nat} (hc : c < 64) (hr : r < 32) :
    (plotRow ox py row acc).1.pixel c r = (acc.1.pixel c r ^^ spriteBit ox py [row] c r) := by
  rw [plotRow, (plotRow_upTo ox py row acc 8).1 c r hc hr]
  congr 1
  unfold spriteBit
  by_cases h : r = py
  · subst h; simp [Bool.and_assoc]
  · by_cases h' : py ≤ r
    · rw [List.getElem?_eq_none (by simp; omega)]; simp [h]
    · simp [h, h']

/-- One sprite row collides where one of its bits lands on a set pixel. -/
theorem collide_plotRow (ox py : Nat) (row : Byte) (acc : Display × Bool) :
    (plotRow ox py row acc).2 = true ↔
      acc.2 = true ∨ ∃ c r, spriteBit ox py [row] c r = true ∧ acc.1.pixel c r = true := by
  rw [plotRow, (plotRow_upTo ox py row acc 8).2]
  refine or_congr Iff.rfl ⟨?_, ?_⟩
  · rintro ⟨k, hk, hb, hp⟩
    exact ⟨ox + k, py, by simp [spriteBit, hk, hb], hp⟩
  · rintro ⟨c, r, hb, hp⟩
    simp only [spriteBit, Bool.and_eq_true, decide_eq_true_eq] at hb
    obtain ⟨⟨⟨h1, h2⟩, h3⟩, h4⟩ := hb
    have hr : r = py := by
      by_contra hne
      rw [List.getElem?_eq_none (by simp; omega)] at h4
      simp at h4
    subst hr
    refine ⟨c - ox, by omega, by simpa using h4, ?_⟩
    rwa [Nat.add_sub_cancel' h1]

/-- The sprite's first row and the rows below it. -/
theorem spriteBit_cons (ox oy : Nat) (row : Byte) (rows : List Byte) (c r : Nat) :
    spriteBit ox oy (row :: rows) c r = (spriteBit ox oy [row] c r ^^ spriteBit ox (oy + 1) rows c r) := by
  unfold spriteBit
  rcases Nat.lt_trichotomy r oy with h | rfl | h
  · simp [show ¬ oy ≤ r by omega, show ¬ oy + 1 ≤ r by omega]
  · simp
  · have h1 : r - oy = (r - (oy + 1)) + 1 := by omega
    simp [h1, show oy ≤ r by omega, show oy + 1 ≤ r by omega]

/-- A whole sprite: every pixel is XORed with the sprite's bit over it. -/
theorem pixel_plotRows (ox oy : Nat) (rows : List Byte) (acc : Display × Bool) {c r : Nat} (hc : c < 64)
    (hr : r < 32) :
    (plotRows ox oy rows acc).1.pixel c r = (acc.1.pixel c r ^^ spriteBit ox oy rows c r) := by
  induction rows generalizing oy acc with
  | nil => simp [plotRows, spriteBit]
  | cons row rows ih =>
    rw [plotRows, ih, pixel_plotRow _ _ _ _ hc hr, spriteBit_cons ox oy row rows, Bool.xor_assoc]

theorem spriteBit_row {ox oy : Nat} {rows : List Byte} {c r : Nat} (h : spriteBit ox oy rows c r = true) : oy ≤ r := by
  simp only [spriteBit, Bool.and_eq_true, decide_eq_true_eq] at h
  exact h.1.2

theorem spriteBit_single_of_lt (ox oy : Nat) (row : Byte) {c r : Nat} (h : oy < r) :
    spriteBit ox oy [row] c r = false := by
  unfold spriteBit
  rw [List.getElem?_eq_none (by simp; omega)]; simp

/-- A whole sprite collides where one of its bits lands on a pixel that was set before the sprite was drawn. -/
theorem collide_plotRows (ox oy : Nat) (rows : List Byte) (acc : Display × Bool) :
    (plotRows ox oy rows acc).2 = true ↔
      acc.2 = true ∨ ∃ c r, spriteBit ox oy rows c r = true ∧ acc.1.pixel c r = true := by
  induction rows generalizing oy acc with
  | nil => simp [plotRows, spriteBit]
  | cons row rows ih =>
    have below : ∀ c r, spriteBit ox (oy + 1) rows c r = true →
        (plotRow ox oy row acc).1.pixel c r = acc.1.pixel c r := by
      intro c r h
      by_cases hg : r < 32 ∧ c < 64
      · rw [pixel_plotRow _ _ _ _ hg.2 hg.1, spriteBit_single_of_lt ox oy row (spriteBit_row h), Bool.xor_false]
      · rw [Display.pixel_outside _ hg, Display.pixel_outside _ hg]
    rw [plotRows, ih, collide_plotRow, or_assoc]
    refine or_congr Iff.rfl ⟨?_, ?_⟩
    · rintro (⟨c, r, hb, hp⟩ | ⟨c, r, hb, hp⟩)
      · refine ⟨c, r, ?_, hp⟩
        rw [spriteBit_cons ox oy row rows, hb]
        have : spriteBit ox (oy + 1) rows c r = false := by
          by_contra h
          have h' := spriteBit_single_of_lt ox oy row (c := c) (spriteBit_row (Bool.eq_true_of_not_eq_false h))
          rw [h'] at hb; cases hb
        rw [this]; rfl
      · refine ⟨c, r, ?_, by rw [← below c r hb]; exact hp⟩
        rw [spriteBit_cons ox oy row rows, hb, spriteBit_single_of_lt ox oy row (spriteBit_row hb)]; rfl
    · rintro ⟨c, r, hb, hp⟩
      rw [spriteBit_cons ox oy row rows] at hb
      cases h : spriteBit ox oy [row] c r
      · rw [h, Bool.false_xor] at hb
        exact .inr ⟨c, r, hb, by rw [below c r hb]; exact hp⟩
      · exact .inl ⟨c, r, h, hp⟩

end Sys2Proof.Machine
end

