-- ==== Sys2Proof/Laws/Registers.lean ====
section
/-! SUPPORT. Reading a general register after each operation on the state, and the operand forms over registers. -/

namespace Sys2Proof.Machine

variable (s : State)

@[simp] theorem State.getV_advance (r : Nibble) : s.advance.getV r = s.getV r := rfl

@[simp] theorem State.getV_setPc (w : Word) (r : Nibble) : (s.setPc w).getV r = s.getV r := rfl

@[simp] theorem State.getV_setI (w : Word) (r : Nibble) : (s.setI w).getV r = s.getV r := rfl

@[simp] theorem State.getV_skipIf (c : Bool) (r : Nibble) : (s.skipIf c).getV r = s.getV r := by cases c <;> rfl

@[simp] theorem State.getV_afterRand (r : Nibble) : s.afterRand.getV r = s.getV r := by
  unfold State.afterRand; split <;> rfl

/-- A write changes the named register alone. -/
theorem State.getV_setV (r : Nibble) (b : Byte) (q : Nibble) :
    (s.setV r b).getV q = if q = r then b else s.getV q := by
  simp only [State.getV, State.setV, Vector.getElem_set, BitVec.toNat_inj]
  by_cases h : r = q
  · simp [h]
  · simp [h, Ne.symm h]

@[simp] theorem State.getV_setV_self (r : Nibble) (b : Byte) : (s.setV r b).getV r = b := by
  simp [State.getV_setV]

theorem State.getV_setV_ne {r q : Nibble} (b : Byte) (h : q ≠ r) : (s.setV r b).getV q = s.getV q := by
  simp [State.getV_setV, h]

/-- The flag wins where the destination is VF. -/
theorem State.getV_writeResultFlag (x : Nibble) (result flag : Byte) (q : Nibble) :
    (s.writeResultFlag x result flag).getV q = if q = regF then flag else if q = x then result else s.getV q := by
  simp [State.writeResultFlag, State.getV_setV]

/-- A block load changes V[0..x] alone. -/
theorem State.getV_loadRegs (x : Nibble) (base : Nat) (q : Nibble) :
    (s.loadRegs x base).getV q = if q.toNat ≤ x.toNat then s.mem.read (base + q.toNat) else s.getV q := by
  simp [State.getV, State.loadRegs]

@[simp] theorem State.length_regsTo (x : Nibble) : (s.regsTo x).length = x.toNat + 1 := by
  have := x.isLt
  simp [State.regsTo]; omega

/-- The j-th byte of a block store is V[j]. -/
theorem State.getElem_regsTo (x : Nibble) (j : Nat) (hj : j < (s.regsTo x).length) :
    (s.regsTo x)[j] = s.getV (BitVec.ofNat 4 j) := by
  have h1 : j < x.toNat + 1 := by simpa using hj
  have h2 := x.isLt
  have h3 : j % 16 = j := Nat.mod_eq_of_lt (by omega)
  simp [State.regsTo, State.getV, h3]

/-- Writes to two different registers commute. -/
theorem State.setV_comm {r q : Nibble} (a b : Byte) (h : r ≠ q) :
    (s.setV q b).setV r a = (s.setV r a).setV q b := by
  have : r.toNat ≠ q.toNat := fun e => h (BitVec.eq_of_toNat_eq e)
  simp only [State.setV, State.mk.injEq, and_true]
  exact Vector.set_comm _ _ (Ne.symm this)

/-- The later of two writes to one register stands. -/
theorem State.setV_setV (r : Nibble) (a b : Byte) : (s.setV r b).setV r a = s.setV r a := by simp [State.setV]

theorem State.advance_setV (r : Nibble) (b : Byte) : (s.setV r b).advance = s.advance.setV r b := rfl

theorem State.skipIf_setV (r : Nibble) (b : Byte) (c : Bool) :
    State.skipIf c (s.setV r b) = (s.skipIf c).setV r b := by cases c <;> rfl

theorem State.afterRand_setV (r : Nibble) (b : Byte) : (s.setV r b).afterRand = s.afterRand.setV r b := by
  unfold State.afterRand; simp only [State.setV_randAnswers]; split <;> rfl

@[simp] theorem State.fontIndexHigh_of_some {h : Config.FontIndexHigh} (hs : s.fontHigh = some h) :
    s.fontIndexHigh = h := by simp [State.fontIndexHigh, hs]

/-- Two states agree on V where every register reads alike. -/
theorem State.v_ext {s t : State} (h : ∀ r, t.getV r = s.getV r) : t.v = s.v := by
  apply Vector.ext
  intro j hj
  have := h (BitVec.ofNat 4 j)
  simpa [State.getV, Nat.mod_eq_of_lt hj] using this

end Sys2Proof.Machine
end

