-- ==== Sys2Proof/Laws/Exec.lean ====
section
/-! SUPPORT. What the meanings with a check of their own answer: the equation where the check passes, and where it
fails. The other meanings are single equations already. -/

namespace Sys2Proof.Machine

variable {s : State}

theorem exec_ret {rest : List Word} {w : Word} (h : s.stack = rest ++ [w]) :
    exec .ret s = .next ({ s.advance with stack := rest }.setPc w) := by
  simp only [exec, execRet, pop_eq_ok.2 h]

theorem exec_ret_empty (h : s.stack = []) : exec .ret s = .next { s with status := .faulted .stackUnderflow } := by
  simp only [exec, execRet, h, pop_nil, raise_eq]

theorem exec_call (addr : Addr) (h : s.stack.length < 16) :
    exec (.call addr) s = .next ({ s.advance with stack := s.stack ++ [s.pc + 2#16] }.setPc (zextAddr addr)) := by
  simp only [exec, execCall, push_eq_ok.2 ⟨h, rfl⟩, State.advance_pc]

theorem exec_call_full (addr : Addr) (h : 16 ≤ s.stack.length) :
    exec (.call addr) s = .next { s with status := .faulted .stackOverflow } := by
  simp only [exec, execCall, push_eq_error.2 ⟨h, rfl⟩, raise_eq]

theorem exec_skp {x : Nibble} (h : (s.getV x).toNat ≤ 0xF) :
    exec (.skp x) s = .next (s.advance.skipIf (s.keyDown (s.getV x).toNat)) := by
  simp only [exec, execSkp, Nat.not_lt.2 h, if_false]

theorem exec_skp_invalid {x : Nibble} (h : 0xF < (s.getV x).toNat) :
    exec (.skp x) s = .next { s with status := .faulted (.invalidKey (s.getV x)) } := by
  simp only [exec, execSkp, h, if_true, raise_eq]

theorem exec_sknp {x : Nibble} (h : (s.getV x).toNat ≤ 0xF) :
    exec (.sknp x) s = .next (s.advance.skipIf (!s.keyDown (s.getV x).toNat)) := by
  simp only [exec, execSknp, Nat.not_lt.2 h, if_false]

theorem exec_sknp_invalid {x : Nibble} (h : 0xF < (s.getV x).toNat) :
    exec (.sknp x) s = .next { s with status := .faulted (.invalidKey (s.getV x)) } := by
  simp only [exec, execSknp, h, if_true, raise_eq]

theorem exec_ldB (x : Nibble) (h : s.i.toNat + 3 ≤ 4096) :
    exec (.ldB x) s = .next { s.advance with mem := s.mem.writeBytes s.i.toNat (bcdDigits (s.getV x)) } := by
  simp only [exec, execLdB, checkRange_eq_none.2 h]

theorem exec_stRegs {x : Nibble} (h : s.i.toNat + (x.toNat + 1) ≤ 4096) :
    exec (.stRegs x) s = .next { s.advance with mem := s.mem.writeBytes s.i.toNat (s.regsTo x) } := by
  simp only [exec, execStRegs, checkRange_eq_none.2 h]

theorem exec_ldRegs {x : Nibble} (h : s.i.toNat + (x.toNat + 1) ≤ 4096) :
    exec (.ldRegs x) s = .next (s.advance.loadRegs x s.i.toNat) := by
  simp only [exec, execLdRegs, checkRange_eq_none.2 h]

/-- The display and the collision a draw gives. -/
theorem exec_drw (x y : Nibble) {n : Nibble} (h : s.i.toNat + n.toNat ≤ 4096) :
    exec (.drw x y n) s =
      .next ({ s.advance with
        disp := (plotRows (originColumn (s.getV x)) (originRow (s.getV y)) (s.mem.readBytes s.i.toNat n.toNat)
          (s.disp, false)).1 }.setV regF
        (flagByte (plotRows (originColumn (s.getV x)) (originRow (s.getV y)) (s.mem.readBytes s.i.toNat n.toNat)
          (s.disp, false)).2)) := by
  simp only [exec, execDrw, checkRange_eq_none.2 h]

/-- What an error is in a meaning: the instruction's own error in that state, with the state before it kept. -/
theorem exec_error {i : Instr} {t : State} (hs : s.status = .running) (h : exec i s = .next t) (e : Error) :
    t.status = .faulted e ↔ OwnError i s e ∧ t = { s with status := .faulted e } := by
  have range : ∀ {i : Instr} {len : Nat} {ok : State}, dataLength i = some len →
      (∀ e, OwnError i s e ↔ 4096 < s.i.toNat + len ∧ e = .outOfBounds (max s.i.toNat 4096)) →
      ok.status = .running →
      (match checkRange s.i.toNat len with
        | some e => raise e s
        | none => .next ok) = .next t →
      (t.status = .faulted e ↔ OwnError i s e ∧ t = { s with status := .faulted e }) := by
    intro i len ok _ hown hok h
    rw [hown]
    split at h <;> rename_i hc
    · obtain ⟨h1, rfl⟩ := checkRange_eq_some.1 hc
      cases h
      simp [h1, eq_comm]
    · have h1 := checkRange_eq_none.1 hc
      cases h
      simp [hok, Nat.not_lt.2 h1]
  cases i
  case ret =>
    rcases List.eq_nil_or_concat s.stack with h1 | ⟨rest, w, h1⟩
    · rw [exec_ret_empty h1] at h; cases h
      simp [OwnError, h1, dataLength, eq_comm]
    · rw [List.concat_eq_append] at h1
      rw [exec_ret h1] at h; cases h
      simp [OwnError, h1, dataLength, hs]
  case call =>
    rcases Nat.lt_or_ge s.stack.length 16 with h1 | h1
    · rw [exec_call _ h1] at h; cases h
      simp [OwnError, dataLength, hs, Nat.not_le.2 h1]
    · rw [exec_call_full _ h1] at h; cases h
      simp [OwnError, dataLength, h1, eq_comm]
  case skp x =>
    rcases Nat.lt_or_ge 0xF (s.getV x).toNat with h1 | h1
    · rw [exec_skp_invalid h1] at h; cases h
      simp [OwnError, dataLength, h1, eq_comm]
    · rw [exec_skp h1] at h; cases h
      simp [OwnError, dataLength, hs, Nat.not_lt.2 h1]
  case sknp x =>
    rcases Nat.lt_or_ge 0xF (s.getV x).toNat with h1 | h1
    · rw [exec_sknp_invalid h1] at h; cases h
      simp [OwnError, dataLength, h1, eq_comm]
    · rw [exec_sknp h1] at h; cases h
      simp [OwnError, dataLength, hs, Nat.not_lt.2 h1]
  case drw => exact range rfl (by simp [OwnError, dataLength]) (by exact hs) h
  case ldB => exact range rfl (by simp [OwnError, dataLength]) (by exact hs) h
  case stRegs => exact range rfl (by simp [OwnError, dataLength]) (by exact hs) h
  case ldRegs => exact range rfl (by simp [OwnError, dataLength]) (by exact hs) h
  all_goals (cases h; simp [OwnError, dataLength, hs])

end Sys2Proof.Machine
end

