-- ==== Sys2Proof/Laws/Flags.lean ====
section
/-! SUPPORT. When each flag is 1; each is 0 otherwise. -/

namespace Sys2Proof.Machine

@[simp] theorem flagByte_true : flagByte true = 1#8 := rfl

@[simp] theorem flagByte_false : flagByte false = 0#8 := rfl

theorem flagByte_eq_one {c : Bool} : flagByte c = 1#8 ↔ c = true := by cases c <;> decide

theorem flagByte_eq_zero {c : Bool} : flagByte c = 0#8 ↔ c = false := by cases c <;> decide

theorem carryFlag_eq (a b : Byte) : carryFlag a b = if 256 ≤ a.toNat + b.toNat then 1#8 else 0#8 := by
  simp [carryFlag, flagByte]

theorem notBorrowFlag_eq (a b : Byte) : notBorrowFlag a b = if b.toNat ≤ a.toNat then 1#8 else 0#8 := by
  simp [notBorrowFlag, flagByte]

/-- The bit a right shift drops is the remainder by 2. -/
theorem toNat_shiftedOutLow (b : Byte) : (shiftedOutLow b).toNat = b.toNat % 2 := by
  revert b; decide

/-- The bit a left shift drops is the half the byte lies in. -/
theorem toNat_shiftedOutHigh (b : Byte) : (shiftedOutHigh b).toNat = b.toNat / 128 := by
  revert b; decide

end Sys2Proof.Machine
end

