-- ==== Sys2Proof/Laws/Memory.lean ====
section
/-! SUPPORT. What the memory operations do: a read after a write, the canonical form, and that two memories in
canonical form that read alike are equal. -/

namespace Sys2Proof.Machine

theorem Memory.wf_nil : Memory.wf [] := ⟨List.Pairwise.nil, by simp⟩

theorem Memory.wf_tail {c : Host.Cell} {m : Memory} (h : Memory.wf (c :: m)) : Memory.wf m :=
  ⟨(List.pairwise_cons.1 h.1).2, fun d hd => h.2 d (List.mem_cons_of_mem _ hd)⟩

/-- An address below every listed one reads as unlisted. -/
theorem Memory.read_of_lt {m : Memory} {a : Nat} (h : ∀ c ∈ m, a < c.1) : m.read a = unlistedByte a := by
  induction m with
  | nil => rfl
  | cons c m ih =>
    have hc := h c (by simp)
    simp [Memory.read, Nat.ne_of_gt hc, ih fun d hd => h d (by simp [hd])]

/-- The cells of one byte in front of a memory that lists only higher addresses. -/
theorem Memory.read_cell_append {m : Memory} {a : Nat} (b : Byte) (h : ∀ c ∈ m, a < c.1) (x : Nat) :
    Memory.read (Memory.cell a b ++ m) x = if x = a then b else m.read x := by
  by_cases hb : b = unlistedByte a
  · by_cases hx : x = a
    · subst hx; simp [Memory.cell, hb, Memory.read_of_lt h]
    · simp [Memory.cell, hb, hx]
  · by_cases hx : x = a
    · simp [Memory.cell, hb, hx, Memory.read]
    · simp [Memory.cell, hb, hx, Memory.read, Ne.symm hx]

/-- Read after write (R61): the written address reads the byte, every other one what it read before. -/
theorem Memory.read_write {m : Memory} (h : m.wf) (a : Nat) (b : Byte) (x : Nat) :
    (m.write a b).read x = if x = a then b else m.read x := by
  induction m with
  | nil => simpa [Memory.write] using Memory.read_cell_append (m := []) b (by simp) x
  | cons c m ih =>
    obtain ⟨hlt, -⟩ := List.pairwise_cons.1 h.1
    unfold Memory.write
    split
    · rename_i hac
      exact Memory.read_cell_append b (by
        intro d hd
        rcases List.mem_cons.1 hd with rfl | hd
        · exact hac
        · exact Nat.lt_trans hac (hlt d hd)) x
    · split
      · rename_i _ hac
        subst hac
        rw [Memory.read_cell_append b hlt x]
        by_cases hx : x = c.1
        · simp [hx]
        · simp [hx, Memory.read, Ne.symm hx]
      · rename_i _ hac
        simp only [Memory.read, ih (Memory.wf_tail h)]
        by_cases hx : c.1 = x
        · subst hx; simp [Ne.symm hac]
        · simp [hx]

theorem Memory.mem_cell {c : Host.Cell} {a : Nat} {b : Byte} :
    c ∈ Memory.cell a b ↔ c = (a, b) ∧ b ≠ unlistedByte a := by
  unfold Memory.cell; split <;> simp_all

/-- A cell of a written memory is the written one or was listed before. -/
theorem Memory.mem_write {m : Memory} {a : Nat} {b : Byte} {c : Host.Cell} (hc : c ∈ m.write a b) :
    (c = (a, b) ∧ b ≠ unlistedByte a) ∨ c ∈ m := by
  induction m with
  | nil => exact .inl (Memory.mem_cell.1 hc)
  | cons d m ih =>
    unfold Memory.write at hc
    split at hc
    · rcases List.mem_append.1 hc with hc | hc
      · exact .inl (Memory.mem_cell.1 hc)
      · exact .inr hc
    · split at hc
      · rcases List.mem_append.1 hc with hc | hc
        · exact .inl (Memory.mem_cell.1 hc)
        · exact .inr (List.mem_cons_of_mem _ hc)
      · rcases List.mem_cons.1 hc with rfl | hc
        · exact .inr (by simp)
        · rcases ih hc with h | h
          · exact .inl h
          · exact .inr (List.mem_cons_of_mem _ h)

theorem Memory.pairwise_cell_append {m : Memory} {a : Nat} (b : Byte) (hm : m.Pairwise fun c d => c.1 < d.1)
    (h : ∀ c ∈ m, a < c.1) : (Memory.cell a b ++ m).Pairwise fun c d => c.1 < d.1 := by
  unfold Memory.cell; split
  · exact hm
  · exact List.pairwise_cons.2 ⟨h, hm⟩

/-- A write inside the address space keeps the canonical form. -/
theorem Memory.wf_write {m : Memory} (h : m.wf) {a : Nat} (ha : a < 4096) (b : Byte) :
    (m.write a b).wf := by
  refine ⟨?_, fun c hc => ?_⟩
  · have key : ∀ {m : Memory}, m.Pairwise (fun c d => c.1 < d.1) →
        (m.write a b).Pairwise fun c d => c.1 < d.1 := by
      intro m
      induction m with
      | nil => intro _; simpa [Memory.write] using Memory.pairwise_cell_append (m := []) b .nil (by simp)
      | cons c m ih =>
        intro hm
        obtain ⟨hlt, hm'⟩ := List.pairwise_cons.1 hm
        unfold Memory.write
        split
        · rename_i hac
          exact Memory.pairwise_cell_append b hm fun d hd => by
            rcases List.mem_cons.1 hd with rfl | hd
            · exact hac
            · exact Nat.lt_trans hac (hlt d hd)
        · split
          · rename_i _ hac
            subst hac
            exact Memory.pairwise_cell_append b hm' hlt
          · rename_i h1 h2
            refine List.pairwise_cons.2 ⟨fun d hd => ?_, ih hm'⟩
            rcases Memory.mem_write hd with ⟨rfl, -⟩ | hd
            · simp only; omega
            · exact hlt d hd
    exact key h.1
  · rcases Memory.mem_write hc with ⟨rfl, hb⟩ | hc
    · exact ⟨ha, hb⟩
    · exact h.2 c hc

/-- Writing a list of bytes inside the address space keeps the canonical form. -/
theorem Memory.wf_writeBytes {m : Memory} (h : m.wf) {base : Nat} {bytes : List Byte}
    (hb : base + bytes.length ≤ 4096) : (m.writeBytes base bytes).wf := by
  induction bytes generalizing m base with
  | nil => exact h
  | cons b bytes ih =>
    simp only [List.length_cons] at hb
    exact ih (Memory.wf_write h (by omega) b) (by omega)

/-- What an address reads after a list of bytes was written at ascending addresses. -/
theorem Memory.read_writeBytes {m : Memory} (h : m.wf) {base : Nat} {bytes : List Byte}
    (hb : base + bytes.length ≤ 4096) (x : Nat) :
    (m.writeBytes base bytes).read x =
      if base ≤ x then (bytes[x - base]?).getD (m.read x) else m.read x := by
  induction bytes generalizing m base with
  | nil => simp [Memory.writeBytes]
  | cons b bytes ih =>
    simp only [List.length_cons] at hb
    rw [Memory.writeBytes, ih (Memory.wf_write h (by omega) b) (by omega), Memory.read_write h]
    by_cases h1 : base + 1 ≤ x
    · have h2 : x - base = (x - (base + 1)) + 1 := by omega
      have h3 : x ≠ base := by omega
      simp [h1, h2, h3, show base ≤ x by omega]
    · by_cases h4 : x = base
      · subst h4; simp
      · simp [h1, h4, show ¬ base ≤ x by omega]

/-- Outside the written bytes memory reads as before. -/
theorem Memory.read_writeBytes_outside {m : Memory} (h : m.wf) {base : Nat} {bytes : List Byte}
    (hb : base + bytes.length ≤ 4096) {x : Nat} (hx : x < base ∨ base + bytes.length ≤ x) :
    (m.writeBytes base bytes).read x = m.read x := by
  rw [Memory.read_writeBytes h hb]
  split
  · rw [List.getElem?_eq_none (by omega)]; rfl
  · rfl

/-- The j-th written byte is read back at `base + j`. -/
theorem Memory.read_writeBytes_inside {m : Memory} (h : m.wf) {base : Nat} {bytes : List Byte}
    (hb : base + bytes.length ≤ 4096) {j : Nat} (hj : j < bytes.length) :
    (m.writeBytes base bytes).read (base + j) = bytes[j] := by
  rw [Memory.read_writeBytes h hb, if_pos (Nat.le_add_right _ _), Nat.add_sub_cancel_left,
    List.getElem?_eq_getElem hj]; rfl

@[simp] theorem Memory.length_readBytes (m : Memory) (base len : Nat) : (m.readBytes base len).length = len := by
  induction len generalizing base with
  | zero => rfl
  | succ len ih => simp [Memory.readBytes, ih]

theorem Memory.getElem_readBytes (m : Memory) (base len j : Nat) (hj : j < (m.readBytes base len).length) :
    (m.readBytes base len)[j] = m.read (base + j) := by
  induction len generalizing base j with
  | zero => simp [Memory.readBytes] at hj
  | succ len ih =>
    cases j with
    | zero => rfl
    | succ j =>
      simp only [Memory.readBytes, List.getElem_cons_succ]
      rw [ih]; congr 1; omega

/-- A memory in canonical form lists an address exactly where it reads other than unlisted. -/
theorem Memory.read_eq_of_mem {m : Memory} (h : m.wf) {c : Host.Cell} (hc : c ∈ m) : m.read c.1 = c.2 := by
  induction m with
  | nil => simp at hc
  | cons d m ih =>
    rcases List.mem_cons.1 hc with rfl | hc
    · simp [Memory.read]
    · have := (List.pairwise_cons.1 h.1).1 c hc
      simp [Memory.read, Nat.ne_of_lt this, ih (Memory.wf_tail h) hc]

end Sys2Proof.Machine
end

