-- ==== Sys2Proof/Laws/PerInstr.lean ====
section
/-! SUPPORT. The family EncodingRow: in the word of an instruction every field of its row of spec/opcode_table.json,
fixed or operand, holds its value. -/

namespace Sys2Proof.Laws.EncodingRow

/-- A field of an opcode-table row, bits hi down to lo, and the value it holds. -/
structure Field where
  hi : Nat
  lo : Nat
  value : Nat

/-- The columns "fixed" and "fields" of the instruction's row, the operands' values in the latter. -/
def row : Instr → List Field
  | .cls => [⟨15, 0, 224⟩]
  | .ret => [⟨15, 0, 238⟩]
  | .jp addr => [⟨15, 12, 1⟩, ⟨11, 0, addr.toNat⟩]
  | .call addr => [⟨15, 12, 2⟩, ⟨11, 0, addr.toNat⟩]
  | .seK x k => [⟨15, 12, 3⟩, ⟨11, 8, x.toNat⟩, ⟨7, 0, k.toNat⟩]
  | .sneK x k => [⟨15, 12, 4⟩, ⟨11, 8, x.toNat⟩, ⟨7, 0, k.toNat⟩]
  | .seV x y => [⟨3, 0, 0⟩, ⟨15, 12, 5⟩, ⟨11, 8, x.toNat⟩, ⟨7, 4, y.toNat⟩]
  | .ldK x k => [⟨15, 12, 6⟩, ⟨11, 8, x.toNat⟩, ⟨7, 0, k.toNat⟩]
  | .addK x k => [⟨15, 12, 7⟩, ⟨11, 8, x.toNat⟩, ⟨7, 0, k.toNat⟩]
  | .ldV x y => [⟨3, 0, 0⟩, ⟨15, 12, 8⟩, ⟨11, 8, x.toNat⟩, ⟨7, 4, y.toNat⟩]
  | .or x y => [⟨3, 0, 1⟩, ⟨15, 12, 8⟩, ⟨11, 8, x.toNat⟩, ⟨7, 4, y.toNat⟩]
  | .and x y => [⟨3, 0, 2⟩, ⟨15, 12, 8⟩, ⟨11, 8, x.toNat⟩, ⟨7, 4, y.toNat⟩]
  | .xor x y => [⟨3, 0, 3⟩, ⟨15, 12, 8⟩, ⟨11, 8, x.toNat⟩, ⟨7, 4, y.toNat⟩]
  | .addV x y => [⟨3, 0, 4⟩, ⟨15, 12, 8⟩, ⟨11, 8, x.toNat⟩, ⟨7, 4, y.toNat⟩]
  | .sub x y => [⟨3, 0, 5⟩, ⟨15, 12, 8⟩, ⟨11, 8, x.toNat⟩, ⟨7, 4, y.toNat⟩]
  | .shr x y => [⟨3, 0, 6⟩, ⟨15, 12, 8⟩, ⟨11, 8, x.toNat⟩, ⟨7, 4, y.toNat⟩]
  | .subn x y => [⟨3, 0, 7⟩, ⟨15, 12, 8⟩, ⟨11, 8, x.toNat⟩, ⟨7, 4, y.toNat⟩]
  | .shl x y => [⟨3, 0, 14⟩, ⟨15, 12, 8⟩, ⟨11, 8, x.toNat⟩, ⟨7, 4, y.toNat⟩]
  | .sneV x y => [⟨3, 0, 0⟩, ⟨15, 12, 9⟩, ⟨11, 8, x.toNat⟩, ⟨7, 4, y.toNat⟩]
  | .ldI addr => [⟨15, 12, 10⟩, ⟨11, 0, addr.toNat⟩]
  | .jpV0 addr => [⟨15, 12, 11⟩, ⟨11, 0, addr.toNat⟩]
  | .rnd x k => [⟨15, 12, 12⟩, ⟨11, 8, x.toNat⟩, ⟨7, 0, k.toNat⟩]
  | .drw x y n => [⟨15, 12, 13⟩, ⟨11, 8, x.toNat⟩, ⟨7, 4, y.toNat⟩, ⟨3, 0, n.toNat⟩]
  | .skp x => [⟨7, 0, 158⟩, ⟨15, 12, 14⟩, ⟨11, 8, x.toNat⟩]
  | .sknp x => [⟨7, 0, 161⟩, ⟨15, 12, 14⟩, ⟨11, 8, x.toNat⟩]
  | .ldVDt x => [⟨7, 0, 7⟩, ⟨15, 12, 15⟩, ⟨11, 8, x.toNat⟩]
  | .ldVK x => [⟨7, 0, 10⟩, ⟨15, 12, 15⟩, ⟨11, 8, x.toNat⟩]
  | .ldDtV x => [⟨7, 0, 21⟩, ⟨15, 12, 15⟩, ⟨11, 8, x.toNat⟩]
  | .ldStV x => [⟨7, 0, 24⟩, ⟨15, 12, 15⟩, ⟨11, 8, x.toNat⟩]
  | .addI x => [⟨7, 0, 30⟩, ⟨15, 12, 15⟩, ⟨11, 8, x.toNat⟩]
  | .ldF x => [⟨7, 0, 41⟩, ⟨15, 12, 15⟩, ⟨11, 8, x.toNat⟩]
  | .ldB x => [⟨7, 0, 51⟩, ⟨15, 12, 15⟩, ⟨11, 8, x.toNat⟩]
  | .stRegs x => [⟨7, 0, 85⟩, ⟨15, 12, 15⟩, ⟨11, 8, x.toNat⟩]
  | .ldRegs x => [⟨7, 0, 101⟩, ⟨15, 12, 15⟩, ⟨11, 8, x.toNat⟩]

/-- Every field of the row holds its value in the word. -/
def Statement (i : Instr) : Prop := ∀ f ∈ row i, (encode i).toNat / 2 ^ f.lo % 2 ^ (f.hi - f.lo + 1) = f.value

theorem cls : Statement .cls := by simp [Statement, row, encode]

theorem ret : Statement .ret := by simp [Statement, row, encode]

theorem jp (addr : Addr) : Statement (.jp addr) := by
  simp only [Statement, row, encode, toNat_fmtNNN, List.forall_mem_cons, List.not_mem_nil, false_implies,
    implies_true, and_true, BitVec.toNat_ofNat, Nat.reducePow, Nat.reduceMod, Nat.reduceSub, Nat.reduceAdd,
    Nat.reduceMul]
  omega

theorem call (addr : Addr) : Statement (.call addr) := by
  simp only [Statement, row, encode, toNat_fmtNNN, List.forall_mem_cons, List.not_mem_nil, false_implies,
    implies_true, and_true, BitVec.toNat_ofNat, Nat.reducePow, Nat.reduceMod, Nat.reduceSub, Nat.reduceAdd,
    Nat.reduceMul]
  omega

theorem seK (x : Nibble) (k : Byte) : Statement (.seK x k) := by
  simp only [Statement, row, encode, toNat_fmtXKK, List.forall_mem_cons, List.not_mem_nil, false_implies,
    implies_true, and_true, BitVec.toNat_ofNat, Nat.reducePow, Nat.reduceMod, Nat.reduceSub, Nat.reduceAdd,
    Nat.reduceMul]
  omega

theorem sneK (x : Nibble) (k : Byte) : Statement (.sneK x k) := by
  simp only [Statement, row, encode, toNat_fmtXKK, List.forall_mem_cons, List.not_mem_nil, false_implies,
    implies_true, and_true, BitVec.toNat_ofNat, Nat.reducePow, Nat.reduceMod, Nat.reduceSub, Nat.reduceAdd,
    Nat.reduceMul]
  omega

theorem seV (x : Nibble) (y : Nibble) : Statement (.seV x y) := by
  simp only [Statement, row, encode, toNat_fmtXYN, List.forall_mem_cons, List.not_mem_nil, false_implies,
    implies_true, and_true, BitVec.toNat_ofNat, Nat.reducePow, Nat.reduceMod, Nat.reduceSub, Nat.reduceAdd,
    Nat.reduceMul]
  omega

theorem ldK (x : Nibble) (k : Byte) : Statement (.ldK x k) := by
  simp only [Statement, row, encode, toNat_fmtXKK, List.forall_mem_cons, List.not_mem_nil, false_implies,
    implies_true, and_true, BitVec.toNat_ofNat, Nat.reducePow, Nat.reduceMod, Nat.reduceSub, Nat.reduceAdd,
    Nat.reduceMul]
  omega

theorem addK (x : Nibble) (k : Byte) : Statement (.addK x k) := by
  simp only [Statement, row, encode, toNat_fmtXKK, List.forall_mem_cons, List.not_mem_nil, false_implies,
    implies_true, and_true, BitVec.toNat_ofNat, Nat.reducePow, Nat.reduceMod, Nat.reduceSub, Nat.reduceAdd,
    Nat.reduceMul]
  omega

theorem ldV (x : Nibble) (y : Nibble) : Statement (.ldV x y) := by
  simp only [Statement, row, encode, toNat_fmtXYN, List.forall_mem_cons, List.not_mem_nil, false_implies,
    implies_true, and_true, BitVec.toNat_ofNat, Nat.reducePow, Nat.reduceMod, Nat.reduceSub, Nat.reduceAdd,
    Nat.reduceMul]
  omega

theorem or (x : Nibble) (y : Nibble) : Statement (.or x y) := by
  simp only [Statement, row, encode, toNat_fmtXYN, List.forall_mem_cons, List.not_mem_nil, false_implies,
    implies_true, and_true, BitVec.toNat_ofNat, Nat.reducePow, Nat.reduceMod, Nat.reduceSub, Nat.reduceAdd,
    Nat.reduceMul]
  omega

theorem and (x : Nibble) (y : Nibble) : Statement (.and x y) := by
  simp only [Statement, row, encode, toNat_fmtXYN, List.forall_mem_cons, List.not_mem_nil, false_implies,
    implies_true, and_true, BitVec.toNat_ofNat, Nat.reducePow, Nat.reduceMod, Nat.reduceSub, Nat.reduceAdd,
    Nat.reduceMul]
  omega

theorem xor (x : Nibble) (y : Nibble) : Statement (.xor x y) := by
  simp only [Statement, row, encode, toNat_fmtXYN, List.forall_mem_cons, List.not_mem_nil, false_implies,
    implies_true, and_true, BitVec.toNat_ofNat, Nat.reducePow, Nat.reduceMod, Nat.reduceSub, Nat.reduceAdd,
    Nat.reduceMul]
  omega

theorem addV (x : Nibble) (y : Nibble) : Statement (.addV x y) := by
  simp only [Statement, row, encode, toNat_fmtXYN, List.forall_mem_cons, List.not_mem_nil, false_implies,
    implies_true, and_true, BitVec.toNat_ofNat, Nat.reducePow, Nat.reduceMod, Nat.reduceSub, Nat.reduceAdd,
    Nat.reduceMul]
  omega

theorem sub (x : Nibble) (y : Nibble) : Statement (.sub x y) := by
  simp only [Statement, row, encode, toNat_fmtXYN, List.forall_mem_cons, List.not_mem_nil, false_implies,
    implies_true, and_true, BitVec.toNat_ofNat, Nat.reducePow, Nat.reduceMod, Nat.reduceSub, Nat.reduceAdd,
    Nat.reduceMul]
  omega

theorem shr (x : Nibble) (y : Nibble) : Statement (.shr x y) := by
  simp only [Statement, row, encode, toNat_fmtXYN, List.forall_mem_cons, List.not_mem_nil, false_implies,
    implies_true, and_true, BitVec.toNat_ofNat, Nat.reducePow, Nat.reduceMod, Nat.reduceSub, Nat.reduceAdd,
    Nat.reduceMul]
  omega

theorem subn (x : Nibble) (y : Nibble) : Statement (.subn x y) := by
  simp only [Statement, row, encode, toNat_fmtXYN, List.forall_mem_cons, List.not_mem_nil, false_implies,
    implies_true, and_true, BitVec.toNat_ofNat, Nat.reducePow, Nat.reduceMod, Nat.reduceSub, Nat.reduceAdd,
    Nat.reduceMul]
  omega

theorem shl (x : Nibble) (y : Nibble) : Statement (.shl x y) := by
  simp only [Statement, row, encode, toNat_fmtXYN, List.forall_mem_cons, List.not_mem_nil, false_implies,
    implies_true, and_true, BitVec.toNat_ofNat, Nat.reducePow, Nat.reduceMod, Nat.reduceSub, Nat.reduceAdd,
    Nat.reduceMul]
  omega

theorem sneV (x : Nibble) (y : Nibble) : Statement (.sneV x y) := by
  simp only [Statement, row, encode, toNat_fmtXYN, List.forall_mem_cons, List.not_mem_nil, false_implies,
    implies_true, and_true, BitVec.toNat_ofNat, Nat.reducePow, Nat.reduceMod, Nat.reduceSub, Nat.reduceAdd,
    Nat.reduceMul]
  omega

theorem ldI (addr : Addr) : Statement (.ldI addr) := by
  simp only [Statement, row, encode, toNat_fmtNNN, List.forall_mem_cons, List.not_mem_nil, false_implies,
    implies_true, and_true, BitVec.toNat_ofNat, Nat.reducePow, Nat.reduceMod, Nat.reduceSub, Nat.reduceAdd,
    Nat.reduceMul]
  omega

theorem jpV0 (addr : Addr) : Statement (.jpV0 addr) := by
  simp only [Statement, row, encode, toNat_fmtNNN, List.forall_mem_cons, List.not_mem_nil, false_implies,
    implies_true, and_true, BitVec.toNat_ofNat, Nat.reducePow, Nat.reduceMod, Nat.reduceSub, Nat.reduceAdd,
    Nat.reduceMul]
  omega

theorem rnd (x : Nibble) (k : Byte) : Statement (.rnd x k) := by
  simp only [Statement, row, encode, toNat_fmtXKK, List.forall_mem_cons, List.not_mem_nil, false_implies,
    implies_true, and_true, BitVec.toNat_ofNat, Nat.reducePow, Nat.reduceMod, Nat.reduceSub, Nat.reduceAdd,
    Nat.reduceMul]
  omega

theorem drw (x : Nibble) (y : Nibble) (n : Nibble) : Statement (.drw x y n) := by
  simp only [Statement, row, encode, toNat_fmtXYN, List.forall_mem_cons, List.not_mem_nil, false_implies,
    implies_true, and_true, BitVec.toNat_ofNat, Nat.reducePow, Nat.reduceMod, Nat.reduceSub, Nat.reduceAdd,
    Nat.reduceMul]
  omega

theorem skp (x : Nibble) : Statement (.skp x) := by
  simp only [Statement, row, encode, toNat_fmtXKK, List.forall_mem_cons, List.not_mem_nil, false_implies,
    implies_true, and_true, BitVec.toNat_ofNat, Nat.reducePow, Nat.reduceMod, Nat.reduceSub, Nat.reduceAdd,
    Nat.reduceMul]
  omega

theorem sknp (x : Nibble) : Statement (.sknp x) := by
  simp only [Statement, row, encode, toNat_fmtXKK, List.forall_mem_cons, List.not_mem_nil, false_implies,
    implies_true, and_true, BitVec.toNat_ofNat, Nat.reducePow, Nat.reduceMod, Nat.reduceSub, Nat.reduceAdd,
    Nat.reduceMul]
  omega

theorem ldVDt (x : Nibble) : Statement (.ldVDt x) := by
  simp only [Statement, row, encode, toNat_fmtXKK, List.forall_mem_cons, List.not_mem_nil, false_implies,
    implies_true, and_true, BitVec.toNat_ofNat, Nat.reducePow, Nat.reduceMod, Nat.reduceSub, Nat.reduceAdd,
    Nat.reduceMul]
  omega

theorem ldVK (x : Nibble) : Statement (.ldVK x) := by
  simp only [Statement, row, encode, toNat_fmtXKK, List.forall_mem_cons, List.not_mem_nil, false_implies,
    implies_true, and_true, BitVec.toNat_ofNat, Nat.reducePow, Nat.reduceMod, Nat.reduceSub, Nat.reduceAdd,
    Nat.reduceMul]
  omega

theorem ldDtV (x : Nibble) : Statement (.ldDtV x) := by
  simp only [Statement, row, encode, toNat_fmtXKK, List.forall_mem_cons, List.not_mem_nil, false_implies,
    implies_true, and_true, BitVec.toNat_ofNat, Nat.reducePow, Nat.reduceMod, Nat.reduceSub, Nat.reduceAdd,
    Nat.reduceMul]
  omega

theorem ldStV (x : Nibble) : Statement (.ldStV x) := by
  simp only [Statement, row, encode, toNat_fmtXKK, List.forall_mem_cons, List.not_mem_nil, false_implies,
    implies_true, and_true, BitVec.toNat_ofNat, Nat.reducePow, Nat.reduceMod, Nat.reduceSub, Nat.reduceAdd,
    Nat.reduceMul]
  omega

theorem addI (x : Nibble) : Statement (.addI x) := by
  simp only [Statement, row, encode, toNat_fmtXKK, List.forall_mem_cons, List.not_mem_nil, false_implies,
    implies_true, and_true, BitVec.toNat_ofNat, Nat.reducePow, Nat.reduceMod, Nat.reduceSub, Nat.reduceAdd,
    Nat.reduceMul]
  omega

theorem ldF (x : Nibble) : Statement (.ldF x) := by
  simp only [Statement, row, encode, toNat_fmtXKK, List.forall_mem_cons, List.not_mem_nil, false_implies,
    implies_true, and_true, BitVec.toNat_ofNat, Nat.reducePow, Nat.reduceMod, Nat.reduceSub, Nat.reduceAdd,
    Nat.reduceMul]
  omega

theorem ldB (x : Nibble) : Statement (.ldB x) := by
  simp only [Statement, row, encode, toNat_fmtXKK, List.forall_mem_cons, List.not_mem_nil, false_implies,
    implies_true, and_true, BitVec.toNat_ofNat, Nat.reducePow, Nat.reduceMod, Nat.reduceSub, Nat.reduceAdd,
    Nat.reduceMul]
  omega

theorem stRegs (x : Nibble) : Statement (.stRegs x) := by
  simp only [Statement, row, encode, toNat_fmtXKK, List.forall_mem_cons, List.not_mem_nil, false_implies,
    implies_true, and_true, BitVec.toNat_ofNat, Nat.reducePow, Nat.reduceMod, Nat.reduceSub, Nat.reduceAdd,
    Nat.reduceMul]
  omega

theorem ldRegs (x : Nibble) : Statement (.ldRegs x) := by
  simp only [Statement, row, encode, toNat_fmtXKK, List.forall_mem_cons, List.not_mem_nil, false_implies,
    implies_true, and_true, BitVec.toNat_ofNat, Nat.reducePow, Nat.reduceMod, Nat.reduceSub, Nat.reduceAdd,
    Nat.reduceMul]
  omega

end Sys2Proof.Laws.EncodingRow
end

