-- ==== Sys2Proof/Laws/Ports.lean ====
section
/-! SUPPORT. What the ports and the host's actions do: the timers' tick, the completion of a key wait, and the memory
a construction leaves. -/

namespace Sys2Proof.Machine

theorem imageFits_eq (image : List Byte) : imageFits image = decide (image.length ≤ 3584) := rfl

/-- A tick takes one from a timer and stops at zero. -/
theorem toNat_tickTimer (b : Byte) : (tickTimer b).toNat = b.toNat - 1 := by
  unfold tickTimer
  split
  · rw [BitVec.toNat_sub_of_le (by simp [BitVec.le_def]; omega)]; rfl
  · simp; omega

theorem lowestKey_eq_none {keys : Keypad} : lowestKey keys = none ↔ keys = 0 := by
  unfold lowestKey
  rw [List.find?_eq_none]
  constructor
  · intro h
    apply BitVec.eq_of_getLsbD_eq
    intro j hj
    simpa using h j (by simpa using hj)
  · rintro rfl; simp

/-- The key a set of keys gives is in it, and none below it is. -/
theorem lowestKey_eq_some {keys : Keypad} {key : Nat} :
    lowestKey keys = some key ↔ keys.getLsbD key = true ∧ ∀ j < key, keys.getLsbD j = false := by
  unfold lowestKey
  rw [List.find?_range_eq_some]
  constructor
  · rintro ⟨h1, -, h3⟩
    exact ⟨h1, fun j hj => by simpa using h3 j hj⟩
  · rintro ⟨h1, h3⟩
    refine ⟨h1, ?_, fun j hj => by simp [h3 j hj]⟩
    simpa using BitVec.lt_of_getLsbD h1

theorem getLsbD_releasedKeys (prev now : Keypad) (k : Nat) :
    (releasedKeys prev now).getLsbD k = (prev.getLsbD k && !now.getLsbD k) := by
  unfold releasedKeys
  by_cases h : k < 16
  · simp [h]
  · simp [BitVec.getLsbD_of_ge _ _ (Nat.not_lt.1 h)]

end Sys2Proof.Machine
end

