-- ==== Sys2Proof/Laws/Safety.lean ====
section
/-! SUPPORT. What the invariant depends on, what a requested step is, and the memory a construction leaves. -/

namespace Sys2Proof.Machine

/-- The invariant carries over where memory, the stack and PC stay and the new status is justified. -/
theorem State.Inv.of_justified {s t : State} (h : s.Inv) (hmem : t.mem = s.mem) (hstack : t.stack = s.stack)
    (hpc : t.pc = s.pc) (hst : t.status.Justified t) : t.Inv :=
  ⟨hmem ▸ h.memWf, hstack ▸ h.stackDepth, hstack ▸ h.stackEntries, hpc ▸ h.pcRange, hst⟩

/-- The invariant reads no other field than these. -/
theorem State.Inv.congr {s t : State} (h : s.Inv) (hmem : t.mem = s.mem) (hstack : t.stack = s.stack)
    (hpc : t.pc = s.pc) (hst : t.status = s.status) (hv : t.v = s.v) (hi : t.i = s.i) (hk : t.keys = s.keys) :
    t.Inv := by
  refine h.of_justified hmem hstack hpc ?_
  have := h.statusJustified
  obtain ⟨v, i, pc, stack, mem, disp, status, fh, dt, st, keys, ha, ra, rd, sd⟩ := t
  simp only at *
  subst hmem hstack hpc hst hv hi hk
  generalize s.status = x at *
  cases x with
  | running => trivial
  | waitKey => exact this
  | faulted e => cases e <;> exact this

/-- A requested step is the step request in the state that serves it. -/
theorem StepRequested.step_eq {s s0 : State} (h : StepRequested s s0) : step s = stepRequest s0 := by
  rcases h with ⟨h, rfl⟩ | ⟨rest, h, rfl⟩
  · exact step_of_no_hostActs h
  · exact step_of_hostActs h

/-- The state that serves a requested step differs from the one before it in the host's queue alone. -/
theorem StepRequested.eq {s s0 : State} (h : StepRequested s s0) : s0 = { s with hostActs := s0.hostActs } := by
  rcases h with ⟨-, rfl⟩ | ⟨rest, -, rfl⟩ <;> rfl

theorem StepRequested.status_eq {s s0 : State} (h : StepRequested s s0) : s0.status = s.status := by rw [h.eq]

theorem StepRequested.fetchInstr_eq {s s0 : State} (h : StepRequested s s0) : fetchInstr s0 = fetchInstr s := by
  rw [h.eq]; rfl

theorem StepRequested.ownError_iff {s s0 : State} (h : StepRequested s s0) (i : Instr) (e : Error) :
    OwnError i s0 e ↔ OwnError i s e := by
  rw [h.eq]; exact Iff.rfl

/-- A requested step of a Running block that fetches an instruction. -/
theorem StepRequested.step_of_fetch {s s0 : State} {i : Instr} (h : StepRequested s s0) (hs : s0.status = .running)
    (hf : fetchInstr s0 = .ok i) : step s = finish (exec i s0) := by
  rw [h.step_eq, stepRequest, hs]
  simp only [runInstr, hf]

/-- A requested step of a Running block that fetches none. -/
theorem StepRequested.step_of_fetch_error {s s0 : State} {e : Error} (h : StepRequested s s0)
    (hs : s0.status = .running) (hf : fetchInstr s0 = .error e) :
    step s = .next { s0 with status := .faulted e } := by
  rw [h.step_eq, stepRequest, hs]
  simp only [runInstr, hf, raise_eq]

/-- An error of an instruction fetched at PC is justified. -/
theorem OwnError.justified {i : Instr} {s : State} {e : Error} (h : OwnError i s e)
    (hi : InstrAt s s.pc.toNat i) (hd : s.stack.length ≤ Config.stackDepth) :
    e.Justified { s with status := .faulted e } := by
  rcases h with ⟨rfl, h1, rfl⟩ | ⟨addr, rfl, h1, rfl⟩ | ⟨len, h1, h2, rfl⟩ | ⟨x, rfl | rfl, h1, rfl⟩
  · exact ⟨hi, h1⟩
  · exact ⟨addr, hi, Nat.le_antisymm hd h1⟩
  · exact .inr ⟨i, len, hi, h1, h2, rfl⟩
  · exact ⟨x, .inl hi, rfl, h1⟩
  · exact ⟨x, .inr hi, rfl, h1⟩

/-- The memory before the image is placed is in canonical form. -/
theorem wf_constructMemory_base (p : InitParams) :
    ((Memory.writeBytes [] 0 (p.mem.take Config.memSize)).writeBytes 0 p.font.toList).wf :=
  Memory.wf_writeBytes (Memory.wf_writeBytes Memory.wf_nil (by simp)) (by simp)

/-- The memory a construction leaves is in canonical form. -/
theorem wf_constructMemory (p : InitParams) {image : List Byte} (h : image.length ≤ 3584) :
    (constructMemory p image).wf :=
  Memory.wf_writeBytes (wf_constructMemory_base p) (by show 0x200 + _ ≤ _; omega)

end Sys2Proof.Machine
end

