-- ==== Sys2Proof/Tests/Slice0.lean ====
section
/-! SUPPORT. The model's own tests: the smoke test of the word and image checks; for every instruction a word written
out bit by bit from spec/30_encoding.md R74 and R95; per instruction at most two single steps with the results of
spec/95_test_vectors.md; and for every statement with hypotheses a state and operands that meet them. -/

namespace Sys2Proof.Tests

open Sys2Proof.Machine

/-! ## Helpers -/

/-- The outcome is a next state with the property. -/
def next (r : Host.Outcome State Fault Refusal) (p : State → Bool) : Bool :=
  match r with
  | .next t => p t
  | _ => false

/-- One step of `s` with the word `w` at PC. -/
def stepWord (w : Nat) (s : State) (p : State → Bool) : Bool := next (step (s.withFetchWord 16 w)) p

/-- The reset state with some registers set. -/
def withV (rs : List (Nibble × Byte)) : State := rs.foldl (fun s r => s.setV r.1 r.2) State.reset

/-- The reset state with bytes at an address, I at that address and some registers set. -/
def withMem (a : Nat) (bytes : List Byte) (rs : List (Nibble × Byte)) : State :=
  { withV rs with mem := Memory.writeBytes [] a bytes, i := BitVec.ofNat 16 a }

/-- The set pixels of a row. -/
def rowSet (d : Display) (r : Nat) : List Nat := (List.range 64).filter fun c => d.pixel c r

/-- A full call stack, 16 entries. -/
def fullStack : List Word := List.replicate 16 0x202#16

/-! ## Well-formedness smoke -/

theorem test_validWord_refuses_zero : validWord 0x0000#16 = false := by decide
theorem test_validWord_refuses_sys : validWord 0x0123#16 = false := by decide
theorem test_validWord_refuses_5xyn : validWord 0x5121#16 = false := by decide
theorem test_validWord_refuses_9xyn : validWord 0x9AB3#16 = false := by decide
theorem test_validWord_refuses_8xyn : validWord 0x8008#16 = false ∧ validWord 0x800D#16 = false := by decide
theorem test_validWord_refuses_exkk : validWord 0xE09F#16 = false ∧ validWord 0xE0A2#16 = false := by decide
theorem test_validWord_refuses_fxkk : validWord 0xF000#16 = false ∧ validWord 0xF066#16 = false := by decide
theorem test_validWord_accepts : validWord 0x00E0#16 = true ∧ validWord 0x8FFE#16 = true := by decide
theorem test_imageFits_limit : imageFits (List.replicate 3584 0#8) = true := by
  simp only [imageFits, List.length_replicate]; decide
theorem test_imageFits_refuses : imageFits (List.replicate 3585 0#8) = false := by
  simp only [imageFits, List.length_replicate]; decide

/-! ## Decoding: op nibble, x, y or k, n, written out in binary -/

theorem test_decode_control :
    decodeWord 0b0000_0000_1110_1110#16 = some .ret ∧
    decodeWord 0b0001_1010_1011_1100#16 = some (.jp 0xABC#12) ∧
    decodeWord 0b0010_0101_0110_0111#16 = some (.call 0x567#12) ∧
    decodeWord 0b0011_1101_0100_0111#16 = some (.seK 0xD#4 0x47#8) ∧
    decodeWord 0b0100_1110_1001_0010#16 = some (.sneK 0xE#4 0x92#8) ∧
    decodeWord 0b0101_0011_1100_0000#16 = some (.seV 0x3#4 0xC#4) ∧
    decodeWord 0b1001_0110_1010_0000#16 = some (.sneV 0x6#4 0xA#4) ∧
    decodeWord 0b1011_1000_0001_0101#16 = some (.jpV0 0x815#12) := by decide

theorem test_decode_immediate :
    decodeWord 0b0110_1001_1111_0001#16 = some (.ldK 0x9#4 0xF1#8) ∧
    decodeWord 0b0111_0100_0010_1110#16 = some (.addK 0x4#4 0x2E#8) := by decide

theorem test_decode_alu :
    decodeWord 0b1000_1010_0101_0000#16 = some (.ldV 0xA#4 0x5#4) ∧
    decodeWord 0b1000_1010_0101_0001#16 = some (.or 0xA#4 0x5#4) ∧
    decodeWord 0b1000_1010_0101_0010#16 = some (.and 0xA#4 0x5#4) ∧
    decodeWord 0b1000_1010_0101_0011#16 = some (.xor 0xA#4 0x5#4) ∧
    decodeWord 0b1000_1010_0101_0100#16 = some (.addV 0xA#4 0x5#4) ∧
    decodeWord 0b1000_1010_0101_0101#16 = some (.sub 0xA#4 0x5#4) ∧
    decodeWord 0b1000_1010_0101_0110#16 = some (.shr 0xA#4 0x5#4) ∧
    decodeWord 0b1000_1010_0101_0111#16 = some (.subn 0xA#4 0x5#4) ∧
    decodeWord 0b1000_1010_0101_1110#16 = some (.shl 0xA#4 0x5#4) := by decide

theorem test_decode_index :
    decodeWord 0b1010_1111_0001_0011#16 = some (.ldI 0xF13#12) ∧
    decodeWord 0b1111_0110_0001_1110#16 = some (.addI 0x6#4) ∧
    decodeWord 0b1111_1001_0010_1001#16 = some (.ldF 0x9#4) ∧
    decodeWord 0b1111_0011_0011_0011#16 = some (.ldB 0x3#4) ∧
    decodeWord 0b1111_1100_0101_0101#16 = some (.stRegs 0xC#4) ∧
    decodeWord 0b1111_1010_0110_0101#16 = some (.ldRegs 0xA#4) := by decide

theorem test_decode_display :
    decodeWord 0b0000_0000_1110_0000#16 = some .cls ∧
    decodeWord 0b1101_0001_0010_0011#16 = some (.drw 0x1#4 0x2#4 0x3#4) := by decide

theorem test_decode_io :
    decodeWord 0b1100_0111_1101_0001#16 = some (.rnd 0x7#4 0xD1#8) ∧
    decodeWord 0b1110_0101_1001_1110#16 = some (.skp 0x5#4) ∧
    decodeWord 0b1110_1101_1010_0001#16 = some (.sknp 0xD#4) ∧
    decodeWord 0b1111_0001_0000_0111#16 = some (.ldVDt 0x1#4) ∧
    decodeWord 0b1111_0010_0000_1010#16 = some (.ldVK 0x2#4) ∧
    decodeWord 0b1111_0100_0001_0101#16 = some (.ldDtV 0x4#4) ∧
    decodeWord 0b1111_1000_0001_1000#16 = some (.ldStV 0x8#4) := by decide

theorem test_decodeTableWord :
    decodeTableWord 16 0xD123 = some (.drw 0x1#4 0x2#4 0x3#4) ∧ decodeTableWord 16 0x5121 = none ∧
    decodeBytes [0xD1#8] = none := by decide

theorem test_encode_draw : encodeBytes (.drw 0x1#4 0x2#4 0x3#4) = [0xD1#8, 0x23#8] := by decide

/-! ## One step each, with the results of spec/95_test_vectors.md -/

/-- T8: a step at 0x200 strobes StepDone once. -/
theorem test_step_strobes : stepWord 0x600A State.reset (fun t => t.stepDones = 1 && t.status = .running) = true := by
  decide

/-- V-fetch: an odd PC. -/
theorem test_fetch_odd : next (step { withMem 0x201 [0x60#8, 0x7F#8] [] with pc := 0x201#16 })
    (fun t => t.getV 0 = 0x7F#8 && t.pc = 0x203#16) = true := by decide

/-- V-fetch: the fetch straddling the end, and its code. -/
theorem test_fetch_straddle : next (step { State.reset with pc := 0xFFF#16 })
    (fun t => t.status = .faulted (.outOfBounds 0x1000) && t.pc = 0xFFF#16) = true ∧
    (Error.outOfBounds 0x1000).code = 4 := by decide

/-- V-fetch: SYS is invalid (90_conflicts.md C1). -/
theorem test_fetch_sys : stepWord 0x0123 State.reset
    (fun t => t.status = .faulted (.decodeError 0x0123#16 0x200#16) && t.pc = 0x200#16 && t.stepDones = 0) = true := by
  decide

/-- V-ctl. -/
theorem test_jp : stepWord 0x1234 State.reset (fun t => t.pc = 0x234#16) = true := by decide

/-- V-ctl: a call at the last word. -/
theorem test_call : stepWord 0x2ABC { State.reset with pc := 0xFFE#16 }
    (fun t => t.stack = [0x1000#16] && t.pc = 0xABC#16) = true := by decide

/-- T5: the 17th push. -/
theorem test_call_full : stepWord 0x2300 { State.reset with stack := fullStack, pc := 0x240#16 }
    (fun t => t.status = .faulted .stackOverflow && t.pc = 0x240#16 && t.stack = fullStack) = true := by decide

/-- T5. -/
theorem test_ret : stepWord 0x00EE { State.reset with stack := [0x111#16, 0x202#16] }
    (fun t => t.stack = [0x111#16] && t.pc = 0x202#16) = true := by decide

/-- T5: the underflow. -/
theorem test_ret_empty : stepWord 0x00EE State.reset
    (fun t => t.status = .faulted .stackUnderflow && t.pc = 0x200#16) = true := by decide

/-- V-ctl. -/
theorem test_seK : stepWord 0x3012 (withV [(0, 0x12)]) (fun t => t.pc = 0x204#16) = true ∧
    stepWord 0x3012 (withV [(0, 0x13)]) (fun t => t.pc = 0x202#16) = true := by decide

/-- V-ctl. -/
theorem test_sneK : stepWord 0x4301 State.reset (fun t => t.pc = 0x204#16) = true ∧
    stepWord 0x4300 State.reset (fun t => t.pc = 0x202#16) = true := by decide

/-- V-ctl. -/
theorem test_seV : stepWord 0x5120 (withV [(1, 0x40), (2, 0x40)]) (fun t => t.pc = 0x204#16) = true ∧
    stepWord 0x5120 (withV [(1, 0x40)]) (fun t => t.pc = 0x202#16) = true := by decide

/-- V-ctl. -/
theorem test_sneV : stepWord 0x9120 (withV [(1, 1), (2, 2)]) (fun t => t.pc = 0x204#16) = true ∧
    stepWord 0x9110 (withV [(1, 1)]) (fun t => t.pc = 0x202#16) = true := by decide

/-- V-ctl: no wrap, and V1 is not read. -/
theorem test_jpV0 : stepWord 0xBFFF (withV [(0, 0xFF)]) (fun t => t.pc = 0x10FE#16) = true ∧
    stepWord 0xB123 (withV [(1, 0x55)]) (fun t => t.pc = 0x123#16) = true := by decide

/-- V-imm. -/
theorem test_ldK : stepWord 0x6A5C State.reset (fun t => t.getV 0xA = 0x5C#8 && t.pc = 0x202#16) = true := by decide

/-- V-imm: no carry flag. -/
theorem test_addK : stepWord 0x70FF (withV [(0, 0x01), (0xF, 0x77)])
    (fun t => t.getV 0 = 0x00#8 && t.getV 0xF = 0x77#8) = true := by decide

/-- V-alu: no flag. -/
theorem test_ldV : stepWord 0x8010 (withV [(0, 0x12), (1, 0x34), (0xF, 0x77)])
    (fun t => t.getV 0 = 0x34#8 && t.getV 0xF = 0x77#8) = true := by decide

/-- T1. -/
theorem test_or : stepWord 0x8011 (withV [(0, 0xF0), (1, 0x0F), (0xF, 0x01)])
    (fun t => t.getV 0 = 0xFF#8 && t.getV 0xF = 0x00#8) = true := by decide

/-- T1. -/
theorem test_and : stepWord 0x8012 (withV [(0, 0xF0), (1, 0x3C), (0xF, 0x01)])
    (fun t => t.getV 0 = 0x30#8 && t.getV 0xF = 0x00#8) = true := by decide

/-- T1. -/
theorem test_xor : stepWord 0x8013 (withV [(0, 0xFF), (1, 0x0F), (0xF, 0xAA)])
    (fun t => t.getV 0 = 0xF0#8 && t.getV 0xF = 0x00#8) = true := by decide

/-- T2: the sums 256 and 255. -/
theorem test_addV : stepWord 0x8014 (withV [(0, 0xFF), (1, 0x01)])
    (fun t => t.getV 0 = 0x00#8 && t.getV 0xF = 0x01#8) = true ∧
    stepWord 0x8014 (withV [(0, 0xFE), (1, 0x01)]) (fun t => t.getV 0 = 0xFF#8 && t.getV 0xF = 0x00#8) = true := by
  decide

/-- V-alu: the carry overwrites the result, and VF is read as an operand before the flag is written. -/
theorem test_addV_flag_register : stepWord 0x8F14 (withV [(0xF, 0xFF), (1, 0x01)]) (fun t => t.getV 0xF = 0x01#8) = true ∧
    stepWord 0x80F4 (withV [(0, 0x10), (0xF, 0xF5)]) (fun t => t.getV 0 = 0x05#8 && t.getV 0xF = 0x01#8) = true := by
  decide

/-- T3: equal operands do not borrow, 4 - 5 does. -/
theorem test_sub : stepWord 0x8015 (withV [(0, 5), (1, 5)]) (fun t => t.getV 0 = 0x00#8 && t.getV 0xF = 0x01#8) = true ∧
    stepWord 0x8015 (withV [(0, 4), (1, 5)]) (fun t => t.getV 0 = 0xFF#8 && t.getV 0xF = 0x00#8) = true := by decide

/-- V-alu. -/
theorem test_subn : stepWord 0x8017 (withV [(0, 4), (1, 5)]) (fun t => t.getV 0 = 0x01#8 && t.getV 0xF = 0x01#8) = true ∧
    stepWord 0x8017 (withV [(0, 5), (1, 4)]) (fun t => t.getV 0 = 0xFF#8 && t.getV 0xF = 0x00#8) = true := by decide

/-- T4: the source is Vy. -/
theorem test_shr : stepWord 0x8016 (withV [(0, 0xFF), (1, 0x03)])
    (fun t => t.getV 0 = 0x01#8 && t.getV 0xF = 0x01#8) = true := by decide

/-- T4: the source is Vy. -/
theorem test_shl : stepWord 0x801E (withV [(0, 0xFF), (1, 0x40)])
    (fun t => t.getV 0 = 0x80#8 && t.getV 0xF = 0x00#8) = true := by decide

/-- V-mem. -/
theorem test_ldI : stepWord 0xAFFF State.reset (fun t => t.i = 0xFFF#16) = true := by decide

/-- V-mem: I wraps at 16 bits, VF stays. -/
theorem test_addI : stepWord 0xF01E { withV [(0, 0x01), (0xF, 0x55)] with i := 0xFFFF#16 }
    (fun t => t.i = 0x0000#16 && t.getV 0xF = 0x55#8) = true := by decide

/-- V-mem. -/
theorem test_ldF : stepWord 0xF029 (withV [(0, 0x0F)]) (fun t => t.i = 0x04B#16) = true := by decide

/-- V-mem: both values of the open parameter. -/
theorem test_ldF_high :
    stepWord 0xF029 { withV [(0, 0x10)] with fontHigh := some .unmasked } (fun t => t.i = 0x050#16) = true ∧
    stepWord 0xF029 { withV [(0, 0x10)] with fontHigh := some .lowNibble } (fun t => t.i = 0x000#16) = true := by decide

/-- V-mem: both values of the open parameter, at the greatest digit. -/
theorem test_fontAddress_high : fontAddress .unmasked 0xFF#8 = 0x4FB#16 ∧ fontAddress .lowNibble 0xFF#8 = 0x04B#16 := by
  decide

/-- V-mem. -/
theorem test_ldB : stepWord 0xF033 { withV [(0, 0x9C)] with i := 0x300#16 }
    (fun t => t.mem.readBytes 0x300 3 = [1#8, 5#8, 6#8] && t.i = 0x300#16) = true := by decide

/-- V-mem. -/
theorem test_ldB_past_end : stepWord 0xF033 { State.reset with i := 0xFFE#16 }
    (fun t => t.status = .faulted (.outOfBounds 0x1000) && t.pc = 0x200#16) = true := by decide

/-- V-mem. -/
theorem test_stRegs : stepWord 0xF155 { withV [(0, 0x11), (1, 0x22), (2, 0x33)] with i := 0x300#16 }
    (fun t => t.mem.readBytes 0x300 3 = [0x11#8, 0x22#8, 0#8] && t.i = 0x300#16) = true := by decide

/-- V-mem: 16 registers do not fit at 0xFF1. -/
theorem test_stRegs_past_end : stepWord 0xFF55 { withV [(0, 0x11)] with i := 0xFF1#16 }
    (fun t => t.status = .faulted (.outOfBounds 0x1000) && t.mem.read 0xFF1 = 0#8) = true := by decide

/-- V-mem. -/
theorem test_ldRegs : stepWord 0xF265 (withMem 0x300 [1#8, 5#8, 6#8, 7#8] [(3, 0x99)])
    (fun t => t.getV 0 = 1#8 && t.getV 1 = 5#8 && t.getV 2 = 6#8 && t.getV 3 = 0x99#8 && t.i = 0x300#16) = true := by
  decide

/-- V-mem: the first 16 bytes of the reference FONT. -/
theorem test_ldRegs_font : stepWord 0xFF65 State.reset (fun t => t.v.toList =
    [0xF0#8, 0x90#8, 0x90#8, 0x90#8, 0xF0#8, 0x20#8, 0x60#8, 0x20#8, 0x20#8, 0x70#8, 0xF0#8, 0x10#8, 0xF0#8, 0x80#8,
     0xF0#8, 0xF0#8]) = true := by decide

/-- V-disp. -/
theorem test_cls : stepWord 0x00E0 { withV [(0xF, 0x77)] with disp := Display.clear.flip 63 31 }
    (fun t => t.disp = Display.clear && t.getV 0xF = 0x77#8) = true := by decide

/-- T12 and T7: column 255 is column 63, and bit 6 is clipped, not wrapped. -/
theorem test_drw_clip : stepWord 0xD011 (withMem 0x300 [0xC0#8] [(0, 0xFF)])
    (fun t => t.disp = Display.clear.flip 63 0 && t.getV 0xF = 0#8) = true := by decide

/-- V-disp: one pixel meets a set one. -/
theorem test_drw_collision : stepWord 0xD011 { withMem 0x300 [0xFF#8] [] with disp := Display.clear.flip 3 0 }
    (fun t => rowSet t.disp 0 = [0, 1, 2, 4, 5, 6, 7] && t.getV 0xF = 1#8) = true := by decide

/-- V-io: a fixed random source. -/
theorem test_rnd : stepWord 0xC00F { State.reset with randAnswers := [0xA7#8, 0x01#8] }
    (fun t => t.getV 0 = 0x07#8 && t.randAnswers = [0x01#8]) = true := by decide

/-- V-io: k = 0 gives 0, whatever the source answers. -/
theorem test_rnd_free : ∃ t, step (State.reset.withFetchWord 16 0xC000) = .next t ∧ t.getV 0 = 0#8 ∧ t.randDraws = 1 :=
  ⟨_, rfl, BitVec.and_zero, rfl⟩

/-- V-io. -/
theorem test_skp : stepWord 0xE09E { withV [(0, 5)] with keys := 0x0020#16 } (fun t => t.pc = 0x204#16) = true ∧
    stepWord 0xE09E (withV [(0, 5)]) (fun t => t.pc = 0x202#16) = true := by decide

/-- V-io. -/
theorem test_skp_invalid : stepWord 0xE09E (withV [(0, 0x10)])
    (fun t => t.status = .faulted (.invalidKey 0x10#8) && t.pc = 0x200#16) = true := by decide

/-- V-io. -/
theorem test_sknp : stepWord 0xE0A1 (withV [(0, 5)]) (fun t => t.pc = 0x204#16) = true ∧
    stepWord 0xE0A1 { withV [(0, 5)] with keys := 0x0020#16 } (fun t => t.pc = 0x202#16) = true := by decide

/-- V-io. -/
theorem test_ldVDt : stepWord 0xF307 { State.reset with dt := 0x3C#8 }
    (fun t => t.getV 3 = 0x3C#8 && t.dt = 0x3C#8) = true := by decide

/-- V-io. -/
theorem test_ldDtV : stepWord 0xF215 (withV [(2, 0x3C)]) (fun t => t.dt = 0x3C#8 && t.st = 0#8) = true := by decide

/-- V-io. -/
theorem test_ldStV : stepWord 0xF218 (withV [(2, 0x10)]) (fun t => t.st = 0x10#8 && t.dt = 0#8) = true := by decide

/-- V-io: the entry of the key wait; no strobe. -/
theorem test_ldVK : stepWord 0xF30A { State.reset with keys := 0x0004#16 }
    (fun t => t.status = .waitKey 3 0x0004#16 && t.pc = 0x202#16 && t.stepDones = 0) = true := by decide

/-- V-io: of two keys released at once the lower one is given. -/
theorem test_key_release : next (step
    { State.reset with status := .waitKey 3 0x0210#16, keys := 0x0210#16, hostActs := [.setKeypad 0] })
    (fun t => t.getV 3 = 4#8 && t.status = .running && t.stepDones = 1 && t.keys = 0) = true := by decide

/-- V-io: a press does not complete the wait. -/
theorem test_key_press : next (step { State.reset with status := .waitKey 3 0, hostActs := [.setKeypad 0x0080#16] })
    (fun t => t.status = .waitKey 3 0x0080#16 && t.stepDones = 0) = true := by decide

/-- V-io: a tick at 1 and at 0. -/
theorem test_tick : next (step { State.reset with dt := 1#8, hostActs := [.tick] })
    (fun t => t.dt = 0#8 && t.st = 0#8) = true := by decide

/-- R280: a construction places the image and keeps the font. -/
theorem test_construct : next (step
    { State.reset with
      pc := 0x400#16, hostActs := [.construct { InitParams.reference with fontHigh := some .lowNibble } [0xAB#8]] })
    (fun t => t.pc = 0x200#16 && t.fontHigh = some .lowNibble && t.mem.read 0x200 = 0xAB#8 && t.mem.read 0x04B = 0xF0#8) = true := by decide

/-! ## Every statement's hypotheses are met somewhere -/

/-- Both forms of the queue under which a step is requested: the hypothesis of every statement about a step. -/
theorem witness_StepRequested :
    StepRequested State.reset State.reset ∧
    StepRequested { State.reset with hostActs := [.step, .tick] } { State.reset with hostActs := [.tick] } :=
  ⟨.inl ⟨rfl, rfl⟩, .inr ⟨_, rfl, rfl⟩⟩

theorem witness_EncodeOfDecodedWordIsTheWord : decodeWord 0xFFFF#16 = none ∧ decodeWord 0xDFFF#16 = some (.drw 0xF 0xF 0xF) := by
  decide

theorem witness_ZeroOpSpaceHoldsTwoInstructions :
    let s : State := { State.reset with mem := [(0xFFE, 0x0F#8), (0xFFF, 0xFF#8)], pc := 0xFFE#16 }
    (0x0FFF#16).toNat < 0x1000 ∧ 0x0FFF#16 ≠ 0x00E0#16 ∧ 0x0FFF#16 ≠ 0x00EE#16 ∧
    s.status = .running ∧ StepRequested s s ∧ s.pc.toNat ≤ 0xFFE ∧ s.wordAt s.pc.toNat = 0x0FFF#16 :=
  ⟨by decide, by decide, by decide, by decide, .inl ⟨rfl, rfl⟩, by decide, by decide⟩

/-- Both clauses on the queue, at the last word of memory. -/
theorem witness_StepRunsTheDecodedInstruction :
    let s : State := { State.reset with mem := [(0xFFE, 0x12#8), (0xFFF, 0x34#8)], pc := 0xFFE#16 }
    let q : State := { s with hostActs := [.step, .tick] }
    s.status = .running ∧ s.pc.toNat ≤ 0xFFE ∧ StepRequested s s ∧ StepRequested q { s with hostActs := [.tick] } ∧
    decodeWord (wordOfBytes (s.mem.read s.pc.toNat) (s.mem.read (s.pc.toNat + 1))) = some (.jp 0x234) ∧
    ∃ t, exec (.jp 0x234) s = .next t :=
  ⟨by decide, by decide, .inl ⟨rfl, rfl⟩, .inr ⟨_, rfl, rfl⟩, by decide, _, rfl⟩

theorem witness_FetchErrorsAreRaisedInOrder :
    let s : State := { State.reset with pc := 0xFFF#16, hostActs := [.step] }
    let u : State := { State.reset with pc := 0xFFE#16 }
    s.status = .running ∧ StepRequested s { s with hostActs := [] } ∧ 0xFFE < s.pc.toNat ∧
    u.status = .running ∧ StepRequested u u ∧ u.pc.toNat ≤ 0xFFE ∧ decodeWord (u.wordAt u.pc.toNat) = none :=
  ⟨by decide, .inr ⟨_, rfl, rfl⟩, by decide, by decide, .inl ⟨rfl, rfl⟩, by decide, by decide⟩

theorem witness_SuspendedOrDeadBlockNeverMoves :
    let s : State := { State.reset with status := .waitKey 3 0, hostActs := [.step, .tick, .readDisplay] }
    let u : State := { State.reset with status := .faulted .stackUnderflow, hostActs := [.setKeypad 1, .step] }
    (s.status ≠ .running ∧
      ∀ a ∈ s.hostActs, a = .step ∨ a = .tick ∨ a = .readDisplay ∨ (Faulted s ∧ ∃ keys, a = .setKeypad keys)) ∧
    (u.status ≠ .running ∧
      ∀ a ∈ u.hostActs, a = .step ∨ a = .tick ∨ a = .readDisplay ∨ (Faulted u ∧ ∃ keys, a = .setKeypad keys)) := by
  refine ⟨⟨by decide, fun a ha => ?_⟩, by decide, fun a ha => ?_⟩
  · simp at ha; tauto
  · simp at ha
    rcases ha with rfl | rfl
    · exact .inr (.inr (.inr ⟨⟨_, rfl⟩, _, rfl⟩))
    · exact .inl rfl

/-- The clause on refusal at 3585 bytes, the other one at 3584 bytes. -/
theorem witness_OnlyAnOversizedImageIsRefused :
    (∃ (s : State) (p : InitParams) (image : List Byte), s.hostActs = .construct p image :: [] ∧ 3584 < image.length) ∧
    ∃ (s : State) (q : InitParams) (bytes : List Byte), s.hostActs = .construct q bytes :: [] ∧
      ∀ p image rest, s.hostActs = .construct p image :: rest → image.length ≤ 3584 := by
  refine ⟨⟨{ State.reset with hostActs := [.construct .reference (List.replicate 3585 0)] }, _, _, rfl, ?_⟩,
    { State.reset with hostActs := [.construct .reference (List.replicate 3584 0)] }, _, _, rfl, fun p image rest h => ?_⟩
  · rw [List.length_replicate]; decide
  · simp only [List.cons.injEq, HostAction.construct.injEq] at h
    rw [← h.1.2, List.length_replicate]

theorem witness_ErrorsArePrecise :
    let q : State := { State.reset with hostActs := [.step, .tick] }
    (State.reset.status = .running ∧ StepRequested State.reset State.reset ∧
      ∃ t, step State.reset = .next t ∧ t.status = .faulted (.decodeError 0x0000#16 0x200#16)) ∧
    (q.status = .running ∧ StepRequested q { State.reset with hostActs := [.tick] } ∧
      ∃ t, step q = .next t ∧ t.status = .faulted (.decodeError 0x0000#16 0x200#16)) :=
  ⟨⟨by decide, .inl ⟨rfl, rfl⟩, _, rfl, by decide⟩, by decide, .inr ⟨_, rfl, rfl⟩, _, rfl, by decide⟩

/-- One state for each of the three causes. -/
theorem witness_ErrorsHaveExactlyTheListedCauses :
    let s : State := { State.reset with pc := 0xFFF#16, hostActs := [.step] }
    let r : State := State.reset.withFetchWord 16 0x00EE
    (s.status = .running ∧ StepRequested s { s with hostActs := [] } ∧ 0xFFE < s.pc.toNat) ∧
    (State.reset.status = .running ∧ StepRequested State.reset State.reset ∧ State.reset.pc.toNat ≤ 0xFFE ∧
      decodeWord (State.reset.wordAt State.reset.pc.toNat) = none) ∧
    (r.status = .running ∧ StepRequested r r ∧ r.pc.toNat ≤ 0xFFE ∧ decodeWord (r.wordAt r.pc.toNat) = some .ret ∧
      OwnError .ret r .stackUnderflow) :=
  ⟨⟨by decide, .inr ⟨_, rfl, rfl⟩, by decide⟩, ⟨by decide, .inl ⟨rfl, rfl⟩, by decide, by decide⟩,
    by decide, .inl ⟨rfl, rfl⟩, by decide, by decide, .inl ⟨rfl, by decide, rfl⟩⟩

theorem witness_JpSetsPc : (0xFFF#12 : Addr) = 0xFFF#12 ∧ State.reset.status = .running ∧
    ∃ t, exec (.jp 0xFFF) State.reset = .next t ∧ StepRequested t t :=
  ⟨rfl, by decide, _, rfl, .inl ⟨rfl, rfl⟩⟩

/-- The least target past the last word, and the greatest. -/
theorem witness_JpV0AddsV0WithoutWrapping :
    (∃ t, exec (.jpV0 0xFFF) State.reset = .next t ∧ 0xFFE < t.pc.toNat ∧ StepRequested t t) ∧
    ∃ t, exec (.jpV0 0xFFF) (withV [(0, 0xFF)]) = .next t ∧ t.pc.toNat = 0x10FE ∧ StepRequested t t :=
  ⟨⟨_, rfl, by decide, .inl ⟨rfl, rfl⟩⟩, _, rfl, by decide, .inl ⟨rfl, rfl⟩⟩

theorem witness_CallPushesTheReturnAddress :
    let s : State := { State.reset with stack := List.replicate 15 0x202#16 }
    let u : State := { State.reset with stack := fullStack }
    s.stack.length < 16 ∧ 16 ≤ u.stack.length := by decide

theorem witness_RetGoesToThePoppedEntry :
    let s : State := { State.reset with stack := [0xFFF#16] }
    s.stack = [] ++ [0xFFF#16] ∧ 0xFFE < (0xFFF#16).toNat ∧ s.status = .running ∧
    (∃ t, exec .ret s = .next t ∧ StepRequested t t) ∧ State.reset.stack = [] :=
  ⟨by decide, by decide, by decide, ⟨_, rfl, .inl ⟨rfl, rfl⟩⟩, by decide⟩

theorem witness_RetUndoesCall : ∃ (s t u : State), s.stack.length < 16 ∧ exec (.call 0x300) s = .next t ∧ u.stack = t.stack :=
  ⟨{ State.reset with stack := List.replicate 15 0x202#16 }, _, _, by decide, rfl, rfl⟩

theorem witness_ComparingSkipsGoPastTheNextInstruction :
    let s := State.reset.withFetchWord 16 0x9AB1
    (1#4 : Nibble) ≠ 0#4 ∧ 0x9AB1#16 = fmtXYN 0x9#4 0xA#4 0xB#4 1#4 ∧ s.status = .running ∧ StepRequested s s ∧
    s.pc.toNat ≤ 0xFFE ∧ s.wordAt s.pc.toNat = 0x9AB1#16 :=
  ⟨by decide, by decide, by decide, .inl ⟨rfl, rfl⟩, by decide, by decide⟩

/-- One state for each clause. -/
theorem witness_PcGoesWhereTheRuleSays :
    State.reset.status = .running ∧ (∃ t, exec (.call 0x300) State.reset = .next t ∧ ¬ Faulted t) ∧
    (∃ t, exec (.jpV0 0x300) State.reset = .next t ∧ ¬ Faulted t) ∧
    (∃ t, exec .ret { State.reset with stack := [0x202#16] } = .next t ∧ ¬ Faulted t) ∧
    (∃ t, exec (.seV 1 1) State.reset = .next t ∧ ¬ Faulted t) ∧
    (∃ t, exec (.ldK 1 1) State.reset = .next t ∧ ¬ Faulted t) := by
  refine ⟨rfl, ⟨_, rfl, ?_⟩, ⟨_, rfl, ?_⟩, ⟨_, rfl, ?_⟩, ⟨_, rfl, ?_⟩, ⟨_, rfl, ?_⟩⟩ <;> rintro ⟨e, he⟩ <;> cases he

/-- The only hypothesis inside the three statements of the flag writers, at the register just below VF. -/
theorem witness_LogicalOperationsClearVF : (0xE#4 : Nibble) ≠ regF := by decide
theorem witness_SumsAndDifferencesSetVF : (0xE#4 : Nibble) ≠ regF := by decide
theorem witness_ShiftsReadVyAndSetVF : (0xE#4 : Nibble) ≠ regF := by decide

theorem witness_RegistersChangeOnlyWhereWritten :
    (∃ t, exec (.addV 1 2) State.reset = .next t) ∧ ¬ mayWriteReg (.addV 1 2) 2 ∧
    (∃ t, exec (.ldRegs 14) State.reset = .next t) ∧ ¬ mayWriteReg (.ldRegs 14) regF :=
  ⟨⟨_, rfl⟩, by simp only [mayWriteReg]; decide, ⟨_, rfl⟩, by simp only [mayWriteReg]; decide⟩

/-- A flag writer that runs, one that faults, and an instruction that writes no flag. -/
theorem witness_VFIsReadOnlyWhereNamed :
    State.reset.status = .running ∧ namesVF (.drw 1 2 1) = false ∧ writesFlag (.drw 1 2 1) = true ∧
    next (exec (.drw 1 2 1) State.reset) (fun t => t.status = .running) = true ∧
    next (exec (.drw 1 2 1) { State.reset with i := 0x1000#16 })
      (fun t => t.status = .faulted (.outOfBounds 0x1000)) = true ∧
    namesVF (.ldRegs 14) = false ∧ writesFlag (.ldRegs 14) = false := by decide

/-- The two digits beside the bound; above it with the parameter chosen both ways and left open. -/
theorem witness_IndexRegisterIsLoadedAndAdded :
    ((withV [(0, 0x0F)]).getV 0).toNat ≤ 0xF ∧ 0xF < ((withV [(0, 0x10)]).getV 0).toNat ∧
    (withV [(0, 0x10)]).fontHigh = none ∧
    { withV [(0, 0x10)] with fontHigh := some .unmasked }.fontHigh.getD Config.fontIndexHigh = .unmasked ∧
    { withV [(0, 0x10)] with fontHigh := some .lowNibble }.fontHigh.getD Config.fontIndexHigh = .lowNibble := by decide

theorem witness_DecimalDigitsAreStored :
    let s : State := { State.reset with i := 0xFFD#16 }
    s.mem.wf ∧ s.i.toNat + 3 ≤ 4096 ∧ (0xFFC < s.i.toNat ∨ s.i.toNat + 3 ≤ 0xFFC) := by decide

/-- For the block store and the block load, at the last place where 16 registers fit. -/
theorem witness_RegistersAreStored :
    let s : State := { State.reset with i := 0xFF0#16 }
    s.mem.wf ∧ s.i.toNat + ((0xF#4).toNat + 1) ≤ 4096 ∧ (0xF#4).toNat ≤ (0xF#4).toNat ∧ 0xFEF < s.i.toNat := by decide

theorem witness_RegistersAreLoaded : ({ State.reset with i := 0xFF0#16 } : State).i.toNat + ((0xF#4).toNat + 1) ≤ 4096 := by
  decide

theorem witness_BlockLoadUndoesBlockStore :
    let s : State := { State.reset with i := 0xFF0#16 }
    s.mem.wf ∧ s.i.toNat + ((0xF#4).toNat + 1) ≤ 4096 ∧
    ∃ t u : State, exec (.stRegs 0xF) s = .next t ∧ u.mem = t.mem ∧ u.i = s.i ∧ (3#4).toNat ≤ (0xF#4).toNat :=
  ⟨by decide, by decide, _, _, rfl, rfl, rfl, by decide⟩

/-- The least I past the end for each length, also for a sprite of no rows. -/
theorem witness_DataRangePastTheEndIsRejectedWhole :
    dataLength (.ldB 0) = some 3 ∧ 4096 < (0xFFE#16).toNat + 3 ∧
    dataLength (.drw 0 0 0) = some 0 ∧ 4096 < (0x1001#16).toNat + 0 ∧
    dataLength (.stRegs 0xF) = some 16 ∧ 4096 < (0xFF1#16).toNat + 16 ∧
    dataLength (.ldRegs 0) = some 1 ∧ 4096 < (0x1000#16).toNat + 1 := by decide

theorem witness_MemoryChangesOnlyWhereStored :
    let s : State := { State.reset with i := 0x300#16 }
    s.mem.wf ∧ (∃ t, exec (.stRegs 1) s = .next t) ∧ (0x2FF < s.i.toNat ∧ s.i.toNat + storeLength (.stRegs 1) ≤ 0x302) ∧
    ∃ t, exec (.ldK 1 1) s = .next t :=
  ⟨by decide, ⟨_, rfl⟩, by decide, _, rfl⟩

theorem witness_CanonicalMemoriesThatReadAlikeAreEqual :
    let m : Memory := Memory.write [] 0x300 1#8
    m.wf ∧ (∀ a, m.read a = m.read a) ∧ (m.write 0x300 0#8) = [] :=
  ⟨by decide, fun _ => rfl, by decide⟩

theorem witness_TheNextFetchSeesAStore :
    let s : State := { withV [(0, 0x12), (1, 0x0A)] with pc := 0xFFC#16, i := 0xFFE#16 }
    s.mem.wf ∧ s.status = .running ∧ 1 ≤ (1#4).toNat ∧ s.pc.toNat ≤ 0xFFC ∧ s.i = s.pc + 2#16 ∧
    s.i.toNat + ((1#4).toNat + 1) ≤ 4096 ∧ decodeWord (wordOfBytes (s.getV 0#4) (s.getV 1#4)) = some (.jp 0x20A) ∧
    ∃ t u, exec (.stRegs 1) s = .next t ∧ StepRequested t t ∧ exec (.jp 0x20A) t = .next u :=
  ⟨by decide, by decide, by decide, by decide, by decide, by decide, by decide, _, _, rfl, .inl ⟨rfl, rfl⟩, rfl⟩

/-- For the draws: 15 rows at the last place they fit, and a sprite of no rows at I = 4096. -/
theorem witness_DrwXorsTheWrappedAndClippedSprite :
    ({ State.reset with i := 0xFF1#16 } : State).i.toNat + (0xF#4).toNat ≤ 4096 ∧
    ({ State.reset with i := 0x1000#16 } : State).i.toNat + (0#4).toNat ≤ 4096 := by decide

theorem witness_DrawingTwiceRestoresTheDisplay :
    ({ State.reset with i := 0xFF1#16 } : State).i.toNat + (0xF#4).toNat ≤ 4096 ∧ (0xE#4) ≠ regF ∧ (0#4) ≠ regF := by decide

theorem witness_OriginsWrapIntoTheGrid :
    let s := withV [(1, 0xFF), (2, 0xFF)]
    (1#4) ≠ 2#4 ∧ s.i.toNat + (5#4).toNat ≤ 4096 ∧ (63#8).toNat % 64 = (s.getV 1).toNat % 64 ∧
    (31#8).toNat % 32 = (s.getV 2).toNat % 32 := by decide

theorem witness_ZeroRowSpriteOnlyClearsVF : ({ State.reset with i := 0x1000#16 } : State).i.toNat ≤ 4096 := by decide

theorem witness_RndMasksAnyRandomByte :
    ({ State.reset with randAnswers := [7#8] } : State).randAnswers = 7#8 :: [] ∧ State.reset.randAnswers = [] := by decide

theorem witness_KeySkipsReadTheKeypadLevel :
    ((withV [(0, 0x0F)]).getV 0).toNat ≤ 0xF ∧ 0xF < ((withV [(0, 0x10)]).getV 0).toNat := by decide

theorem witness_NoInstructionReadsTheSoundTimer :
    (∃ x, Instr.ldStV 3 = .ldStV x) ∧ ∀ x, Instr.ldVDt 3 ≠ .ldStV x := by simp

/-- No release, and a release of key 4 with key 9, which is higher, still down before it. -/
theorem witness_KeyWaitCompletesOnARelease :
    let s : State := { State.reset with status := .waitKey 3 0x0210#16, hostActs := [.setKeypad 0x0210#16] }
    let u : State := { State.reset with status := .waitKey 3 0x0210#16, hostActs := [.setKeypad 0] }
    (s.status = .waitKey 3 0x0210#16 ∧ s.hostActs = .setKeypad 0x0210#16 :: [] ∧
      ∀ k : Nat, (0x0210#16).getLsbD k = true → (0x0210#16).getLsbD k = true) ∧
    (u.status = .waitKey 3 0x0210#16 ∧ u.hostActs = .setKeypad 0 :: [] ∧ (0x0210#16).getLsbD 4 = true ∧
      (0#16).getLsbD 4 = false ∧ ∀ j < 4, (0x0210#16).getLsbD j = true → (0#16).getLsbD j = true) :=
  ⟨⟨rfl, rfl, fun _ h => h⟩, rfl, rfl, by decide, by decide, by decide⟩

theorem witness_TicksCountTimersDownToZero :
    ({ State.reset with hostActs := [.tick, .tick, .step] } : State).hostActs = List.replicate 2 .tick ++ [.step] := by
  decide

theorem witness_ConstructLeavesTheResetState : ∃ (s : State) (p : InitParams) (image : List Byte),
    s.hostActs = .construct p image :: [] ∧ image.length = 3584 ∧ 3583 < image.length ∧ 79 < 80 ∧ 80 < 0x200 :=
  ⟨{ State.reset with hostActs := [.construct .reference (List.replicate 3584 1)] }, _, _, rfl, by
    rw [List.length_replicate], by rw [List.length_replicate]; decide, by decide, by decide⟩

/-- A keypad change while the block runs, and a tick while it waits for a key. -/
theorem witness_HostActionsDoNotWriteTheBlock :
    let s : State := { State.reset with hostActs := [.setKeypad 1, .step] }
    let u : State := { State.reset with status := .waitKey 3 0, hostActs := [.tick] }
    (s.hostActs = .setKeypad 1 :: [.step] ∧ (∃ keys, HostAction.setKeypad 1 = .setKeypad keys) ∧
      ∀ x k0, s.status ≠ .waitKey x k0) ∧
    (u.hostActs = .tick :: [] ∧ ∀ keys, HostAction.tick ≠ .setKeypad keys) ∧
    ({ u with hostActs := [.setKeypad 1] }.hostActs = .setKeypad 1 :: [] ∧ u.status = .waitKey 3 0) ∧
    { s with hostActs := [.readDisplay] }.hostActs = .readDisplay :: [] :=
  ⟨⟨rfl, ⟨_, rfl⟩, fun _ _ h => by cases h⟩, ⟨rfl, fun _ h => by cases h⟩, ⟨rfl, rfl⟩, rfl⟩

theorem witness_EachPieceOfStateHasItsWriters : State.reset.status = .running ∧
    (∃ t, exec (.ldI 0x123) State.reset = .next t ∧ t.i ≠ State.reset.i ∧ t.pc ≠ State.reset.pc) ∧
    ∃ t, exec (.ldK 3 7) State.reset = .next t ∧ t.getV 3 ≠ State.reset.getV 3 :=
  ⟨rfl, ⟨_, rfl, by decide, by decide⟩, _, rfl, by decide⟩

/-- A self-jump at 0x200, and at the last word of memory. -/
theorem witness_SelfJumpOnlyStrobes :
    let s := State.reset.withFetchWord 16 0x1200
    let u : State := { State.reset with
      pc := 0xFFE#16, mem := [(0xFFE, 0x1F#8), (0xFFF, 0xFE#8)], hostActs := [.step, .step] }
    (Halted s ∧ ∀ a ∈ s.hostActs, a = .step) ∧ (Halted u ∧ ∀ a ∈ u.hostActs, a = .step) := by
  refine ⟨⟨⟨?_, ?_, ?_⟩, ?_⟩, ⟨?_, ?_, ?_⟩, ?_⟩ <;> decide

/-- A block that waits for a key after an Fx0A in memory, with an entry on its stack. -/
def waiting : State :=
  { State.reset with
    mem := [(0x200, 0xF3#8), (0x201, 0x0A#8)], pc := 0x202#16, stack := [0x1000#16], status := .waitKey 3 5, keys := 5 }

theorem witness_StepKeepsTheInvariant : waiting.Inv ∧ ∃ t, step waiting = .next t := by
  refine ⟨⟨by decide, by decide, fun w hw => ?_, by decide, ?_⟩, _, rfl⟩
  · rcases List.mem_singleton.1 hw with rfl
    decide
  have h : waiting.status = .waitKey 3 5 := rfl
  rw [h]
  exact ⟨rfl, by decide, by decide, by decide⟩

end Sys2Proof.Tests
end

section
/-! PROOFS of the statements on the index register, construction, and the writers of each piece of state. First the
facts they need about the operand forms, the memory of a construction, and what an instruction can do to the state. -/

namespace Sys2Proof.Machine

/-! ## The glyph address (R174) -/

theorem toNat_fontAddress_of_le {high : Config.FontIndexHigh} {d : Byte} (h : d.toNat ≤ 0xF) :
    (fontAddress high d).toNat = 5 * d.toNat := by
  unfold fontAddress
  rw [if_pos h, BitVec.toNat_ofNat]; omega

theorem toNat_fontAddress_unmasked (d : Byte) : (fontAddress .unmasked d).toNat = 5 * d.toNat := by
  have := d.isLt
  unfold fontAddress; split <;> (rw [BitVec.toNat_ofNat]; omega)

theorem toNat_fontAddress_lowNibble {d : Byte} (h : 0xF < d.toNat) :
    (fontAddress .lowNibble d).toNat = 5 * (d.toNat % 16) := by
  rw [fontAddress, if_neg (Nat.not_le.2 h), BitVec.toNat_ofNat]; omega

theorem toNat_add_zextByte (w : Word) (b : Byte) : (w + zextByte b).toNat = (w.toNat + b.toNat) % 65536 := by
  have := b.isLt
  simp [zextByte]

/-! ## The memory of a construction (R280) -/

theorem unlistedByte_of_lt {a : Nat} (h : a < 80) : unlistedByte a = fontBytes[a] := dif_pos h

theorem unlistedByte_of_ge {a : Nat} (h : 80 ≤ a) : unlistedByte a = 0#8 := dif_neg (Nat.not_lt.2 h)

/-- Writing what the addresses read unlisted leaves the empty memory empty. -/
theorem Memory.writeBytes_nil_of_unlisted {bytes : List Byte} {base : Nat}
    (h : ∀ j (hj : j < bytes.length), bytes[j] = unlistedByte (base + j)) : Memory.writeBytes [] base bytes = [] := by
  induction bytes generalizing base with
  | nil => rfl
  | cons b bytes ih =>
    have hb : b = unlistedByte base := h 0 (by simp)
    have hcell : Memory.write [] base b = [] := if_pos hb
    rw [Memory.writeBytes, hcell]
    exact ih fun j hj => by
      rw [Nat.add_assoc, Nat.add_comm 1]
      exact h (j + 1) (Nat.succ_lt_succ hj)

theorem constructMemory_reference_nil : constructMemory .reference [] = [] := by
  have hfont : Memory.writeBytes [] 0 fontBytes.toList = [] :=
    Memory.writeBytes_nil_of_unlisted fun j hj => by
      simp [unlistedByte_of_lt (show j < 80 by simpa using hj)]
  exact hfont

theorem wf_memInit (p : InitParams) : (Memory.writeBytes [] 0 (p.mem.take Config.memSize)).wf :=
  Memory.wf_writeBytes Memory.wf_nil (by simp)

section
variable (p : InitParams) {image : List Byte} (h : image.length ≤ 3584)
include h

theorem read_constructMemory_image {j : Nat} (hj : j < image.length) :
    (constructMemory p image).read (0x200 + j) = image[j] :=
  Memory.read_writeBytes_inside (wf_constructMemory_base p) (by show 0x200 + _ ≤ _; omega) hj

/-- Outside the image memory holds the font over MEM_INIT. -/
theorem read_constructMemory_outside {a : Nat} (ha : a < 0x200 ∨ 0x200 + image.length ≤ a) :
    (constructMemory p image).read a =
      ((Memory.writeBytes [] 0 (p.mem.take Config.memSize)).writeBytes 0 p.font.toList).read a :=
  Memory.read_writeBytes_outside (wf_constructMemory_base p) (by show 0x200 + _ ≤ _; omega) ha

theorem read_constructMemory_font {a : Nat} (ha : a < 80) : (constructMemory p image).read a = p.font[a] := by
  have hinside := Memory.read_writeBytes_inside (wf_memInit p) (base := 0) (bytes := p.font.toList) (j := a)
    (by simp) (by simpa using ha)
  rw [read_constructMemory_outside p h (by omega)]
  simpa using hinside

theorem read_constructMemory_memInit {a : Nat} (hfont : 80 ≤ a) (himage : a < 0x200 ∨ 0x200 + image.length ≤ a)
    (hsize : a < 4096) : (constructMemory p image).read a = (p.mem[a]?).getD 0#8 := by
  rw [read_constructMemory_outside p h himage,
    Memory.read_writeBytes_outside (wf_memInit p) (by simp) (by simpa using hfont),
    Memory.read_writeBytes Memory.wf_nil (by simp)]
  simp [hsize, Memory.read, unlistedByte_of_ge hfont]

theorem construct_of_fits (s : State) :
    construct p image s = .next { s with
      v := p.v, i := p.i, pc := 0x200#16, stack := [], mem := constructMemory p image, disp := p.disp,
      status := .running, fontHigh := p.fontHigh, dt := p.dt, st := p.st } :=
  if_pos (by simpa [imageFits_eq] using h)

end

/-! ## What an instruction can do to the state -/

/-- The registers `v` hold what those of `s` hold, but where the instruction may write. -/
def KeepsRegs (i : Instr) (s : State) (v : Vector Byte 16) : Prop :=
  ∀ r, ¬ mayWriteReg i r → { s with v := v }.getV r = s.getV r

/-- The state an instruction can leave: the state from before it with an error recorded, or that state with PC and
the pieces the instruction writes replaced. One constructor per set of pieces that are written together. -/
inductive Effect (i : Instr) (s : State) : State → Prop
  | fault (e : Error) : Effect i s { s with status := .faulted e }
  | pc (pc : Word) : Effect i s { s with pc := pc }
  | regs (pc : Word) (v : Vector Byte 16) (hv : KeepsRegs i s v) : Effect i s { s with pc := pc, v := v }
  | index (pc w : Word) (hi : (∃ addr, i = .ldI addr) ∨ ∃ x, i = .addI x ∨ i = .ldF x) :
      Effect i s { s with pc := pc, i := w }
  | stack (pc : Word) (stack : List Word) (hi : i = .ret ∨ ∃ addr, i = .call addr) :
      Effect i s { s with pc := pc, stack := stack }
  | display (pc : Word) (v : Vector Byte 16) (disp : Display) (hi : i = .cls ∨ ∃ x y n, i = .drw x y n)
      (hv : KeepsRegs i s v) : Effect i s { s with pc := pc, v := v, disp := disp }
  | memory (pc : Word) (mem : Memory) (hi : ∃ x, i = .ldB x ∨ i = .stRegs x) :
      Effect i s { s with pc := pc, mem := mem }
  | delayTimer (pc : Word) (dt : Byte) (hi : ∃ x, i = .ldDtV x) : Effect i s { s with pc := pc, dt := dt }
  | soundTimer (pc : Word) (st : Byte) (hi : ∃ x, i = .ldStV x) : Effect i s { s with pc := pc, st := st }
  | random (pc : Word) (v : Vector Byte 16) (answers : List Byte) (draws : Nat) (hi : ∃ x k, i = .rnd x k)
      (hv : KeepsRegs i s v) : Effect i s { s with pc := pc, v := v, randAnswers := answers, randDraws := draws }
  | keyWait (pc : Word) (x : Nibble) (hi : i = .ldVK x) :
      Effect i s { s with pc := pc, status := .waitKey x s.keys }

theorem State.skipIf_eq (s : State) (c : Bool) : s.skipIf c = { s with pc := (s.skipIf c).pc } := by cases c <;> rfl

theorem State.afterRand_eq (s : State) :
    s.afterRand = { s with randAnswers := s.afterRand.randAnswers, randDraws := s.afterRand.randDraws } := by
  unfold State.afterRand; split <;> rfl

theorem KeepsRegs.refl (i : Instr) (s : State) : KeepsRegs i s s.v := fun _ _ => rfl

/-- A register that holds another byte is one the instruction may write. -/
theorem KeepsRegs.mayWriteReg {i : Instr} {s : State} {v : Vector Byte 16} (hv : KeepsRegs i s v) {r : Nibble}
    (hr : { s with v := v }.getV r ≠ s.getV r) : mayWriteReg i r :=
  by_contra fun hno => hr (hv r hno)

theorem keepsRegs_setV {i : Instr} (s : State) {x : Nibble} (b : Byte) (hx : mayWriteReg i x) :
    KeepsRegs i s (s.setV x b).v := fun _ hr =>
  State.getV_setV_ne s b fun e => hr (e ▸ hx)

theorem keepsRegs_writeResultFlag {i : Instr} (s : State) {x : Nibble} (result flag : Byte)
    (hx : mayWriteReg i x) (hF : mayWriteReg i regF) : KeepsRegs i s (s.writeResultFlag x result flag).v :=
  fun r hr => by
    have hrF : r ≠ regF := fun e => hr (e ▸ hF)
    have hrx : r ≠ x := fun e => hr (e ▸ hx)
    exact (State.getV_writeResultFlag s x result flag r).trans (by rw [if_neg hrF, if_neg hrx])

theorem keepsRegs_loadRegs (s : State) (x : Nibble) (base : Nat) :
    KeepsRegs (.ldRegs x) s (s.loadRegs x base).v := fun _ hr =>
  (State.getV_loadRegs s x base _).trans (if_neg hr)

theorem not_faulted_of_running {s : State} (h : s.status = .running) : ¬ Faulted s := by simp [Faulted, h]

section
variable {i : Instr} {s : State}

theorem effect_skip (c : Bool) : Effect i s (s.advance.skipIf c) := by
  rw [State.skipIf_eq]; exact .pc _

theorem effect_setV {x : Nibble} (b : Byte) (hx : mayWriteReg i x) : Effect i s (s.advance.setV x b) :=
  .regs _ _ (keepsRegs_setV s b hx)

theorem effect_writeResultFlag {x : Nibble} (result flag : Byte) (hx : mayWriteReg i x)
    (hF : mayWriteReg i regF) : Effect i s (s.advance.writeResultFlag x result flag) :=
  .regs _ _ (keepsRegs_writeResultFlag s result flag hx hF)

theorem effect_rnd (x : Nibble) (k b : Byte) : Effect (.rnd x k) s (s.advance.afterRand.setV x b) := by
  rw [State.afterRand_eq]
  exact .random _ _ _ _ ⟨x, k, rfl⟩ (keepsRegs_setV s b rfl)

/-- A data access past the end of memory is rejected whole (R58). -/
theorem exec_outOfBounds {len : Nat} (hlen : dataLength i = some len) (h : 4096 < s.i.toNat + len) :
    exec i s = .next { s with status := .faulted (.outOfBounds (max s.i.toNat 4096)) } := by
  have hc := checkRange_eq_some.2 ⟨h, rfl⟩
  -- Only the four instructions with a data access have a length.
  cases i <;> cases hlen <;> simp only [exec, execDrw, execLdB, execStRegs, execLdRegs, hc, raise_eq]

/-- Everything an instruction can do to the state. -/
theorem exec_effect {t : State} (h : exec i s = .next t) : Effect i s t := by
  by_cases hrange : ∃ len, dataLength i = some len ∧ 4096 < s.i.toNat + len
  · obtain ⟨len, hlen, hpast⟩ := hrange
    cases (exec_outOfBounds hlen hpast).symm.trans h
    exact .fault _
  have inRange : ∀ {len}, dataLength i = some len → s.i.toNat + len ≤ 4096 := fun hlen =>
    Nat.not_lt.1 fun hpast => hrange ⟨_, hlen, hpast⟩
  cases i
  case ret =>
    rcases List.eq_nil_or_concat' s.stack with hempty | ⟨rest, w, hstack⟩
    · cases (exec_ret_empty hempty).symm.trans h
      exact .fault _
    · cases (exec_ret hstack).symm.trans h
      exact .stack _ _ (.inl rfl)
  case call addr =>
    rcases Nat.lt_or_ge s.stack.length 16 with hroom | hfull
    · cases (exec_call addr hroom).symm.trans h
      exact .stack _ _ (.inr ⟨addr, rfl⟩)
    · cases (exec_call_full addr hfull).symm.trans h
      exact .fault _
  case skp x =>
    rcases Nat.lt_or_ge 0xF (s.getV x).toNat with hkey | hkey
    · cases (exec_skp_invalid hkey).symm.trans h
      exact .fault _
    · cases (exec_skp hkey).symm.trans h
      exact effect_skip _
  case sknp x =>
    rcases Nat.lt_or_ge 0xF (s.getV x).toNat with hkey | hkey
    · cases (exec_sknp_invalid hkey).symm.trans h
      exact .fault _
    · cases (exec_sknp hkey).symm.trans h
      exact effect_skip _
  case drw x y n =>
    cases (exec_drw x y (inRange rfl)).symm.trans h
    exact .display _ _ _ (.inr ⟨x, y, n, rfl⟩) (keepsRegs_setV s _ rfl)
  case ldB x =>
    cases (exec_ldB x (inRange rfl)).symm.trans h
    exact .memory _ _ ⟨x, .inl rfl⟩
  case stRegs x =>
    cases (exec_stRegs (inRange rfl)).symm.trans h
    exact .memory _ _ ⟨x, .inr rfl⟩
  case ldRegs x =>
    cases (exec_ldRegs (inRange rfl)).symm.trans h
    exact .regs _ _ (keepsRegs_loadRegs s x _)
  all_goals obtain rfl := Host.Outcome.next.inj h
  case jp | jpV0 => exact .pc _
  case seK | sneK | seV | sneV => exact effect_skip _
  case cls => exact .display _ _ _ (.inl rfl) (KeepsRegs.refl _ s)
  case ldI addr => exact .index _ _ (.inl ⟨addr, rfl⟩)
  case addI x => exact .index _ _ (.inr ⟨x, .inl rfl⟩)
  case ldF x => exact .index _ _ (.inr ⟨x, .inr rfl⟩)
  case ldDtV x => exact .delayTimer _ _ ⟨x, rfl⟩
  case ldStV x => exact .soundTimer _ _ ⟨x, rfl⟩
  case ldVK x => exact .keyWait _ x rfl
  case rnd x k => exact effect_rnd x k _
  case ldK | addK | ldV | ldVDt => exact effect_setV _ rfl
  case or | and | xor | addV | sub | shr | subn | shl => exact effect_writeResultFlag _ _ (.inl rfl) (.inr rfl)

end

/-! ## The statements -/

/-- Settles O26: each meaning is a single equation, and the value of I is that of its operand form. -/
theorem indexRegisterIsLoadedAndAdded : Obligations.IndexRegisterIsLoadedAndAdded := by
  intro addr x s
  refine ⟨⟨_, rfl, toNat_zextAddr addr, rfl, rfl, fun _ => rfl⟩,
    ⟨_, rfl, toNat_add_zextByte s.i (s.getV x), rfl, rfl, fun _ => rfl⟩,
    ⟨_, rfl, toNat_fontAddress_of_le, fun hhigh => ?_, rfl, rfl, fun _ => rfl⟩⟩
  show (fontAddress (s.fontHigh.getD Config.fontIndexHigh) (s.getV x)).toNat = _
  cases s.fontHigh.getD Config.fontIndexHigh with
  | unmasked => exact toNat_fontAddress_unmasked _
  | lowNibble => exact toNat_fontAddress_lowNibble hhigh

/-- Settles O47, from what the memory of a construction reads in the image, in the font and elsewhere. -/
theorem constructLeavesTheResetState : Obligations.ConstructLeavesTheResetState := by
  intro p image rest s hacts hlen
  exact ⟨_, (step_of_hostActs hacts).trans (construct_of_fits p hlen _), rfl, rfl, rfl, rfl, rfl, rfl, rfl, rfl, rfl,
    wf_constructMemory p hlen, fun _ => read_constructMemory_image p hlen, fun _ => read_constructMemory_font p hlen,
    fun _ => read_constructMemory_memInit p hlen, rfl, rfl, rfl, rfl, rfl⟩

/-- Settles O48: the reference font is what memory reads unlisted, so placing it lists no byte. -/
theorem resetIsTheConstructionOfAnEmptyImage : Obligations.ResetIsTheConstructionOfAnEmptyImage := by
  refine ⟨rfl, rfl, rfl, fun _ => unlistedByte_of_lt, fun s => ?_⟩
  rw [construct_of_fits .reference (Nat.zero_le _), constructMemory_reference_nil]
  rfl

/-- Settles O50, from what an instruction can do to the state: an error leaves every piece but Status, and every other
effect leaves the block un-Faulted and names the writers of what it replaces. -/
theorem eachPieceOfStateHasItsWriters : Obligations.EachPieceOfStateHasItsWriters := by
  intro i s t hs h
  cases exec_effect h with
  | fault e => simp [Faulted, State.getV]
  | pc pc => simp [Faulted, State.getV, hs]
  | regs pc v hv =>
    exact ⟨fun _ hr => ⟨hv.mayWriteReg hr, not_faulted_of_running hs⟩, fun _ => not_faulted_of_running hs,
      by simp [hs]⟩
  | index pc w hi => simp [Faulted, State.getV, hs, hi]
  | stack pc stack hi => simp [Faulted, State.getV, hs, hi]
  | display pc v disp hi hv =>
    exact ⟨fun _ hr => ⟨hv.mayWriteReg hr, not_faulted_of_running hs⟩, fun _ => not_faulted_of_running hs,
      by simp [hs, hi]⟩
  | memory pc mem hi => simp [Faulted, State.getV, hs, hi]
  | delayTimer pc dt hi => simp [Faulted, State.getV, hs, hi]
  | soundTimer pc st hi => simp [Faulted, State.getV, hs, hi]
  | random pc v answers draws hi hv =>
    exact ⟨fun _ hr => ⟨hv.mayWriteReg hr, not_faulted_of_running hs⟩, fun _ => not_faulted_of_running hs,
      by simp [hs, hi]⟩
  | keyWait pc x hi => simp [Faulted, State.getV, hi]

end Sys2Proof.Machine
end

section
/-! PROOFS of the statements on the call stack, PC, the general registers and their flags, what an instruction does not
read, and the invariant. First what an instruction answers: an error of its own, or its completion. -/

namespace Sys2Proof.Machine

/-! ## An error of the instruction's own, or its completion (R90, R92, R241) -/

/-- The state an instruction leaves where none of its checks fails. The meanings that check something stand here as
their equations in Laws/Exec.lean give them; every other one checks nothing, and its completion is what `exec` answers. -/
def completion (i : Instr) (s : State) : State :=
  match i with
  | .ret => { s.advance with stack := s.stack.dropLast }.setPc (s.stack.getLast?.getD 0#16)
  | .call addr => { s.advance with stack := s.stack ++ [s.pc + 2#16] }.setPc (zextAddr addr)
  | .skp x => s.advance.skipIf (s.keyDown (s.getV x).toNat)
  | .sknp x => s.advance.skipIf (!s.keyDown (s.getV x).toNat)
  | .drw x y n =>
    let drawn := plotRows (originColumn (s.getV x)) (originRow (s.getV y)) (s.mem.readBytes s.i.toNat n.toNat)
      (s.disp, false)
    { s.advance with disp := drawn.1 }.setV regF (flagByte drawn.2)
  | .ldB x => { s.advance with mem := s.mem.writeBytes s.i.toNat (bcdDigits (s.getV x)) }
  | .stRegs x => { s.advance with mem := s.mem.writeBytes s.i.toNat (s.regsTo x) }
  | .ldRegs x => s.advance.loadRegs x s.i.toNat
  | i => match exec i s with
    | .next t => t
    | .fault _ | .refused _ => s

section
variable {i : Instr} {s t : State}

theorem exec_of_ownError {e : Error} (h : OwnError i s e) : exec i s = .next { s with status := .faulted e } := by
  rcases h with ⟨rfl, hempty, rfl⟩ | ⟨addr, rfl, hfull, rfl⟩ | ⟨len, hlen, hpast, rfl⟩ | ⟨x, rfl | rfl, hkey, rfl⟩
  · exact exec_ret_empty hempty
  · exact exec_call_full addr hfull
  · exact exec_outOfBounds hlen hpast
  · exact exec_skp_invalid hkey
  · exact exec_sknp_invalid hkey

theorem stack_ne_nil_of_no_ownError (h : ∀ e, ¬ OwnError .ret s e) : s.stack ≠ [] := fun hempty =>
  h _ (.inl ⟨rfl, hempty, rfl⟩)

theorem stack_lt_of_no_ownError {addr : Addr} (h : ∀ e, ¬ OwnError (.call addr) s e) : s.stack.length < 16 :=
  Nat.not_le.1 fun hfull => h _ (.inr (.inl ⟨addr, rfl, hfull, rfl⟩))

theorem inRange_of_no_ownError {len : Nat} (h : ∀ e, ¬ OwnError i s e) (hlen : dataLength i = some len) :
    s.i.toNat + len ≤ 4096 :=
  Nat.not_lt.1 fun hpast => h _ (.inr (.inr (.inl ⟨len, hlen, hpast, rfl⟩)))

theorem key_le_of_no_ownError {x : Nibble} (h : ∀ e, ¬ OwnError i s e) (hi : i = .skp x ∨ i = .sknp x) :
    (s.getV x).toNat ≤ 0xF :=
  Nat.not_lt.1 fun hkey => h _ (.inr (.inr (.inr ⟨x, hi, hkey, rfl⟩)))

theorem exec_of_no_ownError (h : ∀ e, ¬ OwnError i s e) : exec i s = .next (completion i s) := by
  cases i
  case ret =>
    rcases List.eq_nil_or_concat' s.stack with hempty | ⟨rest, w, hstack⟩
    · exact absurd hempty (stack_ne_nil_of_no_ownError h)
    · rw [exec_ret hstack]
      simp [completion, hstack]
  case call addr => exact exec_call addr (stack_lt_of_no_ownError h)
  case skp => exact exec_skp (key_le_of_no_ownError h (.inl rfl))
  case sknp => exact exec_sknp (key_le_of_no_ownError h (.inr rfl))
  case drw x y n => exact exec_drw x y (inRange_of_no_ownError h rfl)
  case ldB x => exact exec_ldB x (inRange_of_no_ownError h rfl)
  case stRegs => exact exec_stRegs (inRange_of_no_ownError h rfl)
  case ldRegs => exact exec_ldRegs (inRange_of_no_ownError h rfl)
  all_goals rfl

/-- What an instruction answers: the state from before it with its own error recorded, or its completion. -/
theorem exec_cases (i : Instr) (s : State) :
    (∃ e, OwnError i s e ∧ exec i s = .next { s with status := .faulted e }) ∨
      ((∀ e, ¬ OwnError i s e) ∧ exec i s = .next (completion i s)) := by
  by_cases h : ∃ e, OwnError i s e
  · obtain ⟨e, he⟩ := h
    exact .inl ⟨e, he, exec_of_ownError he⟩
  · have hno := not_exists.1 h
    exact .inr ⟨hno, exec_of_no_ownError hno⟩

theorem eq_of_exec_eq_next (h : exec i s = .next t) :
    (∃ e, OwnError i s e ∧ t = { s with status := .faulted e }) ∨
      ((∀ e, ¬ OwnError i s e) ∧ t = completion i s) := by
  rcases exec_cases i s with ⟨e, he, heq⟩ | ⟨hno, heq⟩ <;> cases heq.symm.trans h
  · exact .inl ⟨e, he, rfl⟩
  · exact .inr ⟨hno, rfl⟩

theorem eq_completion_of_not_faulted (h : exec i s = .next t) (hf : ¬ Faulted t) :
    (∀ e, ¬ OwnError i s e) ∧ t = completion i s := by
  rcases eq_of_exec_eq_next h with ⟨e, -, rfl⟩ | hcompletes
  · exact absurd ⟨e, rfl⟩ hf
  · exact hcompletes

theorem not_faulted_completion (hs : s.status = .running) (h : ∀ e, ¬ OwnError i s e) :
    ¬ Faulted (completion i s) := fun ⟨e, he⟩ =>
  h e ((exec_error hs (exec_of_no_ownError h) e).1 he).1

end

/-! ## The call stack through CALL and RET (R29 to R31, R101, R103) -/

/-- Settles O15, from the two equations of CALL. -/
theorem callPushesTheReturnAddress : Obligations.CallPushesTheReturnAddress := by
  intro addr s
  refine ⟨by simp [decodeWord], fun hroom => ?_, fun hfull => ?_⟩
  · exact ⟨_, exec_call addr hroom, rfl, toNat_zextAddr addr, rfl, fun _ => rfl⟩
  · exact ⟨_, exec_call_full addr hfull, rfl, rfl, rfl, fun _ => rfl, fun _ _ => rfl⟩

/-- Settles O17: the stack a CALL left ends with the address that the RET takes off. -/
theorem retUndoesCall : Obligations.RetUndoesCall := by
  intro addr s u hroom
  exact ⟨_, exec_call addr hroom, fun hstack => ⟨_, exec_ret hstack, rfl, rfl⟩⟩

/-! ## PC after an instruction (R26) -/

section
variable {i : Instr} {s : State}

theorem skipIf_advance_pc (s : State) (c : Bool) :
    (s.advance.skipIf c).pc = s.pc + 2#16 ∨ (s.advance.skipIf c).pc = s.pc + 4#16 := by
  cases c
  · exact .inl rfl
  · exact .inr (pc_add_add s.pc)

theorem completion_pc_of_isSkip (h : isSkip i = true) :
    (completion i s).pc = s.pc + 2#16 ∨ (completion i s).pc = s.pc + 4#16 := by
  cases i
  case seK | sneK | seV | sneV | skp | sknp => exact skipIf_advance_pc s _
  all_goals cases h

theorem completion_pc_of_plain (hjump : ∀ addr, i ≠ .jp addr ∧ i ≠ .call addr ∧ i ≠ .jpV0 addr) (hret : i ≠ .ret)
    (hskip : isSkip i = false) : (completion i s).pc = s.pc + 2#16 := by
  cases i
  case jp addr => exact absurd rfl (hjump addr).1
  case call addr => exact absurd rfl (hjump addr).2.1
  case jpV0 addr => exact absurd rfl (hjump addr).2.2
  case ret => exact absurd rfl hret
  case seK | sneK | seV | sneV | skp | sknp => cases hskip
  case rnd => exact State.afterRand_pc _
  all_goals rfl

theorem getLast?_eq_completion_ret_pc (h : s.stack ≠ []) : s.stack.getLast? = some (completion .ret s).pc := by
  simp [completion, List.getLast?_eq_some_getLast h]

end

/-- Settles O19: an instruction that raises no error ends in its completion, whose PC is known by kind. -/
theorem pcGoesWhereTheRuleSays : Obligations.PcGoesWhereTheRuleSays := by
  intro i s t _ h hf
  obtain ⟨hno, rfl⟩ := eq_completion_of_not_faulted h hf
  refine ⟨?_, ?_, ?_, completion_pc_of_isSkip, completion_pc_of_plain⟩
  · rintro addr (rfl | rfl) <;> exact toNat_zextAddr addr
  · rintro addr rfl
    exact toNat_zextAddr_add_zextByte addr _
  · rintro rfl
    exact getLast?_eq_completion_ret_pc (stack_ne_nil_of_no_ownError hno)

/-! ## The general registers and the flag writers (R21 to R23, R140) -/

/-- Settles O24: every effect that replaces the registers keeps those the instruction may not write. -/
theorem registersChangeOnlyWhereWritten : Obligations.RegistersChangeOnlyWhereWritten := by
  intro i s t r h hr
  cases exec_effect h with
  | regs _ _ hv | display _ _ _ _ hv | random _ _ _ _ _ hv => exact hv r hr
  | _ => rfl

/-- The whole effect of a flag writer of op 8: what holds of the flag it computes holds of VF, and what holds of its
result holds of its destination, unless that is VF (D2). -/
theorem exec_of_writeResultFlag {i : Instr} {s : State} {x : Nibble} {result flag : Byte}
    {flagSpec resultSpec : Byte → Prop} (h : exec i s = .next (s.advance.writeResultFlag x result flag))
    (hflag : flagSpec flag) (hresult : resultSpec result) :
    ∃ t, exec i s = .next t ∧ flagSpec (t.getV regF) ∧ (x ≠ regF → resultSpec (t.getV x)) ∧
      SameRegsExcept [x, regF] s t ∧ t.pc = s.pc + 2#16 ∧ t = { s with pc := t.pc, v := t.v } ∧ SameMemory s t := by
  refine ⟨_, h, ?_, fun hx => ?_, fun r hr => ?_, rfl, rfl, fun _ => rfl⟩
  · simpa [State.getV_writeResultFlag] using hflag
  · simpa [State.getV_writeResultFlag, hx] using hresult
  · obtain ⟨hrx, hrF⟩ : r ≠ x ∧ r ≠ regF := by simpa using hr
    simp [State.getV_writeResultFlag, hrx, hrF]

/-- Settles O21: the flag is 0, and the result is the library's fact about each bitwise operation. -/
theorem logicalOperationsClearVF : Obligations.LogicalOperationsClearVF := by
  intro x y s
  refine ⟨?_, ?_, ?_⟩
  · exact exec_of_writeResultFlag (i := .or x y) (flagSpec := (· = 0#8))
      (resultSpec := fun b => ∀ j, b.getLsbD j = ((s.getV x).getLsbD j || (s.getV y).getLsbD j)) rfl rfl
      fun _ => BitVec.getLsbD_or
  · exact exec_of_writeResultFlag (i := .and x y) (flagSpec := (· = 0#8))
      (resultSpec := fun b => ∀ j, b.getLsbD j = ((s.getV x).getLsbD j && (s.getV y).getLsbD j)) rfl rfl
      fun _ => BitVec.getLsbD_and
  · exact exec_of_writeResultFlag (i := .xor x y) (flagSpec := (· = 0#8))
      (resultSpec := fun b => ∀ j, b.getLsbD j = ((s.getV x).getLsbD j ^^ (s.getV y).getLsbD j)) rfl rfl
      fun _ => BitVec.getLsbD_xor

/-- A difference of bytes is the difference of the numbers modulo 256. -/
theorem toNat_sub_eq_int_emod (a b : Byte) : ((a - b).toNat : Int) = ((a.toNat : Int) - b.toNat) % 256 := by
  rw [BitVec.toNat_sub]; omega

/-- Settles O22, from the values of the carry and of not-borrow, read from the old operands. -/
theorem sumsAndDifferencesSetVF : Obligations.SumsAndDifferencesSetVF := by
  intro x y s
  refine ⟨?_, ?_, ?_⟩
  · exact exec_of_writeResultFlag (i := .addV x y) (flagSpec := (· = _))
      (resultSpec := fun b => b.toNat = ((s.getV x).toNat + (s.getV y).toNat) % 256)
      rfl (carryFlag_eq _ _) (BitVec.toNat_add _ _)
  · exact exec_of_writeResultFlag (i := .sub x y) (flagSpec := (· = _))
      (resultSpec := fun b => (b.toNat : Int) = ((s.getV x).toNat - (s.getV y).toNat : Int) % 256)
      rfl (notBorrowFlag_eq _ _) (toNat_sub_eq_int_emod _ _)
  · exact exec_of_writeResultFlag (i := .subn x y) (flagSpec := (· = _))
      (resultSpec := fun b => (b.toNat : Int) = ((s.getV y).toNat - (s.getV x).toNat : Int) % 256)
      rfl (notBorrowFlag_eq _ _) (toNat_sub_eq_int_emod _ _)

/-- Settles O23: a shift by one place halves or doubles, and the flag is the bit it drops. -/
theorem shiftsReadVyAndSetVF : Obligations.ShiftsReadVyAndSetVF := by
  intro x y s
  refine ⟨?_, ?_⟩
  · exact exec_of_writeResultFlag (i := .shr x y) (flagSpec := fun b => b.toNat = _)
      (resultSpec := fun b => b.toNat = (s.getV y).toNat / 2) rfl (toNat_shiftedOutLow _)
      (by simp [Nat.shiftRight_eq_div_pow])
  · exact exec_of_writeResultFlag (i := .shl x y) (flagSpec := fun b => b.toNat = _)
      (resultSpec := fun b => b.toNat = 2 * (s.getV y).toNat % 256) rfl (toNat_shiftedOutHigh _)
      (by simp [Nat.shiftLeft_eq, Nat.mul_comm])

/-! ## No instruction reads the sound timer (R35, R255) -/

theorem State.skipIf_withSt (s : State) (c : Bool) (b : Byte) :
    State.skipIf c { s with st := b } = { s.skipIf c with st := b } := by cases c <;> rfl

theorem State.afterRand_withSt (s : State) (b : Byte) :
    { s with st := b }.afterRand = { s.afterRand with st := b } := by
  cases h : s.randAnswers <;> simp [State.afterRand, h]

theorem completion_withSt {i : Instr} (s : State) (b : Byte) (hi : ∀ x, i ≠ .ldStV x) :
    completion i { s with st := b } = { completion i s with st := b } := by
  cases i
  case ldStV x => exact absurd rfl (hi x)
  case seK | sneK | seV | sneV | skp | sknp => exact State.skipIf_withSt s.advance _ b
  case rnd x k =>
    show { s.advance with st := b }.afterRand.setV x (s.randByte &&& k) = _
    rw [State.afterRand_withSt]
    rfl
  all_goals rfl

/-- Settles O43: Fx18 overwrites ST; the errors and the completions of all others do not depend on it. -/
theorem noInstructionReadsTheSoundTimer : Obligations.NoInstructionReadsTheSoundTimer := by
  intro i s b
  by_cases hi : ∃ x, i = .ldStV x
  · obtain ⟨x, rfl⟩ := hi
    exact ⟨_, rfl, fun _ => rfl, fun h => absurd rfl (h x)⟩
  rcases exec_cases i s with ⟨e, he, heq⟩ | ⟨hno, heq⟩
  · exact ⟨_, heq, fun h => absurd h hi, fun _ => exec_of_ownError (s := { s with st := b }) he⟩
  · refine ⟨_, heq, fun h => absurd h hi, fun h => ?_⟩
    rw [← completion_withSt s b h]
    exact exec_of_no_ownError (s := { s with st := b }) hno

/-! ## VF is read only where it is named (R22) -/

section
variable (s : State) (b : Byte)

theorem State.keyDown_setV (r : Nibble) (k : Nat) : (s.setV r b).keyDown k = s.keyDown k := rfl

theorem State.randByte_setV (r : Nibble) : (s.setV r b).randByte = s.randByte := rfl

theorem State.dtRead_setV (r : Nibble) : (s.setV r b).dtRead = s.dtRead := rfl

/-- The flag written last hides what VF held. -/
theorem State.writeResultFlag_setV_regF (x : Nibble) (result flag : Byte) :
    (s.setV regF b).writeResultFlag x result flag = s.writeResultFlag x result flag := by
  unfold State.writeResultFlag
  by_cases hx : x = regF
  · rw [hx, State.setV_setV, State.setV_setV, State.setV_setV]
  · rw [State.setV_comm _ _ _ hx, State.setV_setV]

variable {x r : Nibble}

theorem State.regsTo_setV_of_lt (h : x.toNat < r.toNat) : (s.setV r b).regsTo x = s.regsTo x := by
  simp [State.regsTo, State.setV, Vector.toList_set, List.take_set_of_le h]

theorem State.loadRegs_setV_of_lt (base : Nat) (h : x.toNat < r.toNat) :
    (s.setV r b).loadRegs x base = (s.loadRegs x base).setV r b := by
  have hv : ((s.setV r b).loadRegs x base).v = ((s.loadRegs x base).setV r b).v := State.v_ext fun q => by
    rw [State.getV_setV, State.getV_loadRegs, State.getV_loadRegs, State.getV_setV, State.setV_mem]
    by_cases hq : q = r
    · simp [hq, Nat.not_le.2 h]
    · simp [hq]
  exact congrArg (fun v => { s with v := v }) hv

theorem toNat_lt_regF (h : x ≠ regF) : x.toNat < regF.toNat := by
  revert x; decide

variable {i : Instr} (hvf : namesVF i = false)
include hvf

theorem ownError_setV_regF (e : Error) : OwnError i (s.setV regF b) e ↔ OwnError i s e := by
  -- Only the key number of SKP and SKNP is read from a general register.
  refine or_congr Iff.rfl (or_congr Iff.rfl (or_congr Iff.rfl (exists_congr fun x => and_congr_right fun hi => ?_)))
  have hx : x ≠ regF := by rcases hi with rfl | rfl <;> simpa [namesVF] using hvf
  rw [State.getV_setV_ne s b hx]

theorem completion_setV_regF_of_writesFlag (hw : writesFlag i = true) :
    completion i (s.setV regF b) = completion i s := by
  cases i
  case or x y | and x y | xor x y | addV x y | sub x y | shr x y | subn x y | shl x y =>
    obtain ⟨hx, hy⟩ : x ≠ regF ∧ y ≠ regF := by simpa [namesVF] using hvf
    simp only [completion, exec, execOr, execAnd, execXor, execAddV, execSub, execShr, execSubn, execShl,
      State.advance_setV, State.writeResultFlag_setV_regF, State.getV_setV_ne s b hx, State.getV_setV_ne s b hy]
  case drw x y n =>
    obtain ⟨hx, hy⟩ : x ≠ regF ∧ y ≠ regF := by simpa [namesVF] using hvf
    simp only [completion, State.getV_setV_ne s b hx, State.getV_setV_ne s b hy]
    exact State.setV_setV { s.advance with disp := _ } regF _ b
  all_goals cases hw

theorem completion_setV_regF_of_not_writesFlag (hw : writesFlag i = false) :
    completion i (s.setV regF b) = (completion i s).setV regF b := by
  cases i
  -- Those that read no general register.
  case cls | ret | jp | call | ldI | ldVK => rfl
  case jpV0 addr =>
    have hV0 : (s.setV regF b).getV 0#4 = s.getV 0#4 := State.getV_setV_ne s b (by decide)
    simp only [completion, exec, execJpV0, hV0]
    rfl
  -- The skips.
  case seV x y | sneV x y =>
    obtain ⟨hx, hy⟩ : x ≠ regF ∧ y ≠ regF := by simpa [namesVF] using hvf
    simp only [completion, exec, execSeV, execSneV, State.advance_setV, State.skipIf_setV,
      State.getV_setV_ne s b hx, State.getV_setV_ne s b hy]
  case seK x k | sneK x k | skp x | sknp x =>
    have hx : x ≠ regF := by simpa [namesVF] using hvf
    simp only [completion, exec, execSeK, execSneK, State.advance_setV, State.skipIf_setV, State.getV_setV_ne s b hx,
      State.keyDown_setV]
  -- Those that write one general register.
  case ldV x y =>
    obtain ⟨hx, hy⟩ : x ≠ regF ∧ y ≠ regF := by simpa [namesVF] using hvf
    simp only [completion, exec, execLdV, State.advance_setV, State.getV_setV_ne s b hy, State.setV_comm _ _ _ hx]
  case ldK x k | addK x k | rnd x k | ldVDt x =>
    have hx : x ≠ regF := by simpa [namesVF] using hvf
    simp only [completion, exec, execLdK, execAddK, execRnd, execLdVDt, State.advance_setV, State.afterRand_setV,
      State.getV_setV_ne s b hx, State.setV_comm _ _ _ hx, State.randByte_setV, State.dtRead_setV]
  -- Those that only read one, and the block transfers, which end below VF.
  case ldDtV x | ldStV x | addI x | ldF x | ldB x =>
    have hx : x ≠ regF := by simpa [namesVF] using hvf
    simp only [completion, exec, execLdDtV, execLdStV, execAddI, execLdF, State.getV_setV_ne s b hx]
    rfl
  case stRegs x =>
    have hx : x ≠ regF := by simpa [namesVF] using hvf
    simp only [completion, State.regsTo_setV_of_lt s b (toNat_lt_regF hx)]
    rfl
  case ldRegs x =>
    have hx : x ≠ regF := by simpa [namesVF] using hvf
    exact State.loadRegs_setV_of_lt s.advance b s.i.toNat (toNat_lt_regF hx)
  all_goals cases hw

end

/-- Settles O25: neither the error nor the completion of an instruction that does not name VF depends on it; the
completion of a flag writer overwrites it, that of every other one hands it through. -/
theorem vfIsReadOnlyWhereNamed : Obligations.VFIsReadOnlyWhereNamed := by
  intro i s b hs hvf
  rcases exec_cases i s with ⟨e, he, heq⟩ | ⟨hno, heq⟩
  · exact ⟨_, heq, fun h => absurd ⟨e, rfl⟩ h.2, fun _ => exec_of_ownError ((ownError_setV_regF s b hvf e).2 he)⟩
  · have hcompletes : exec i (s.setV regF b) = .next (completion i (s.setV regF b)) :=
      exec_of_no_ownError fun e he => hno e ((ownError_setV_regF s b hvf e).1 he)
    refine ⟨_, heq, fun h => ?_, fun h => ?_⟩
    · rw [hcompletes, completion_setV_regF_of_writesFlag s b hvf h.1]
    · have hw : writesFlag i = false :=
        Bool.eq_false_iff.2 fun hw => h ⟨hw, not_faulted_completion hs hno⟩
      rw [hcompletes, completion_setV_regF_of_not_writesFlag s b hvf hw]

/-! ## The invariant: what an instruction keeps -/

section
variable {i : Instr} {s t : State}

theorem exec_stack (h : exec i s = .next t) :
    t.stack = s.stack ∨ t.stack = s.stack.dropLast ∨ (s.stack.length < 16 ∧ t.stack = s.stack ++ [s.pc + 2#16]) := by
  rcases eq_of_exec_eq_next h with ⟨e, -, rfl⟩ | ⟨hno, rfl⟩
  · exact .inl rfl
  cases i
  case ret => exact .inr (.inl rfl)
  case call => exact .inr (.inr ⟨stack_lt_of_no_ownError hno, rfl⟩)
  case seK | sneK | seV | sneV | skp | sknp => exact .inl (State.skipIf_stack _ _)
  case rnd => exact .inl (State.afterRand_stack _)
  all_goals exact .inl rfl

theorem exec_mem (h : exec i s = .next t) :
    t.mem = s.mem ∨ ∃ bytes, s.i.toNat + bytes.length ≤ 4096 ∧ t.mem = s.mem.writeBytes s.i.toNat bytes := by
  rcases eq_of_exec_eq_next h with ⟨e, -, rfl⟩ | ⟨hno, rfl⟩
  · exact .inl rfl
  cases i
  case ldB => exact .inr ⟨_, inRange_of_no_ownError hno rfl, rfl⟩
  case stRegs => exact .inr ⟨_, by simpa using inRange_of_no_ownError hno rfl, rfl⟩
  case seK | sneK | seV | sneV | skp | sknp => exact .inl (State.skipIf_mem _ _)
  case rnd => exact .inl (State.afterRand_mem _)
  all_goals exact .inl rfl

theorem State.Inv.stackDepth_of_exec (h : s.Inv) (hexec : exec i s = .next t) :
    t.stack.length ≤ Config.stackDepth := by
  have hdepth := h.stackDepth
  rcases exec_stack hexec with hstack | hstack | ⟨hroom, hstack⟩ <;> rw [hstack]
  · exact hdepth
  · exact s.stack.dropLast_sublist.length_le.trans hdepth
  · simpa using hroom

theorem State.Inv.stackEntries_of_exec (h : s.Inv) (hpc : s.pc.toNat ≤ 0xFFE) (hexec : exec i s = .next t) :
    ∀ w ∈ t.stack, w.toNat ≤ 0x1000 := by
  intro w hw
  rcases exec_stack hexec with hstack | hstack | ⟨-, hstack⟩ <;> rw [hstack] at hw
  · exact h.stackEntries w hw
  · exact h.stackEntries w (List.mem_of_mem_dropLast hw)
  · rcases List.mem_append.1 hw with hw | hw
    · exact h.stackEntries w hw
    · rw [List.mem_singleton.1 hw, (toNat_pc_add hpc).1]
      exact Nat.add_le_add_right hpc 2

theorem State.Inv.memWf_of_exec (h : s.Inv) (hexec : exec i s = .next t) : t.mem.wf := by
  rcases exec_mem hexec with hmem | ⟨bytes, hrange, hmem⟩ <;> rw [hmem]
  · exact h.memWf
  · exact Memory.wf_writeBytes h.memWf hrange

/-- The bound of R27 is the greatest target of JP V0; every other target is an address, a stack entry, or at most 4
past an address that was fetched from. -/
theorem State.Inv.pc_le_of_exec (h : s.Inv) (hs : s.status = .running) (hpc : s.pc.toNat ≤ 0xFFE)
    (hexec : exec i s = .next t) (hf : ¬ Faulted t) : t.pc.toNat ≤ 0x10FE := by
  obtain ⟨hjump, hjumpV0, hret, hskip, hplain⟩ := pcGoesWhereTheRuleSays i s t hs hexec hf
  obtain ⟨hadvance, hskipped⟩ := toNat_pc_add hpc
  cases i
  case jp addr => have := hjump addr (.inl rfl); omega
  case call addr => have := hjump addr (.inr rfl); omega
  case jpV0 addr => have := hjumpV0 addr rfl; omega
  case ret => exact (h.stackEntries _ (List.mem_of_getLast? (hret rfl))).trans (by decide)
  case seK | sneK | seV | sneV | skp | sknp => rcases hskip rfl with h | h <;> rw [h] <;> omega
  all_goals rw [hplain (by simp) (by simp) rfl]; omega

/-- A key wait is entered by Fx0A alone, with PC past it and the keypad as it stands (R222). -/
theorem status_justified_of_exec (hs : s.status = .running) (hi : InstrAt s s.pc.toNat i) (h : exec i s = .next t)
    (hf : ¬ Faulted t) : t.status.Justified t := by
  cases exec_effect h with
  | fault e => exact absurd ⟨e, rfl⟩ hf
  | keyWait pc x hx =>
    subst hx
    obtain rfl : s.pc + 2#16 = pc := congrArg State.pc (Host.Outcome.next.inj h)
    have hpc := (toNat_pc_add hi.1).1
    refine ⟨rfl, hpc ▸ Nat.le_add_left 2 _, ?_⟩
    show InstrAt s ((s.pc + 2#16).toNat - 2) (.ldVK x)
    rwa [hpc, Nat.add_sub_cancel]
  | _ =>
    show s.status.Justified _
    rw [hs]
    trivial

theorem State.Inv.of_exec (h : s.Inv) (hs : s.status = .running) (hi : InstrAt s s.pc.toNat i)
    (hexec : exec i s = .next t) : t.Inv := by
  by_cases hf : Faulted t
  · obtain ⟨e, he⟩ := hf
    obtain ⟨hown, rfl⟩ := (exec_error hs hexec e).1 he
    exact h.of_justified rfl rfl rfl (hown.justified hi h.stackDepth)
  · exact ⟨h.memWf_of_exec hexec, h.stackDepth_of_exec hexec, h.stackEntries_of_exec hi.1 hexec,
      h.pc_le_of_exec hs hi.1 hexec hf, status_justified_of_exec hs hi hexec hf⟩

/-! ## The invariant: what a step request and the host's other actions keep -/

theorem State.Inv.endStep (h : s.Inv) : s.endStep.Inv :=
  h.congr s.endStep_mem s.endStep_stack s.endStep_pc s.endStep_status s.endStep_v s.endStep_i s.endStep_keys

/-- An error of the fetch or of the decoder is justified by PC and by the word there (R92). -/
theorem justified_of_fetchInstr_error {e : Error} (h : fetchInstr s = .error e) :
    e.Justified { s with status := .faulted e } := by
  rcases fetchInstr_eq_error.1 h with ⟨hpc, rfl⟩ | ⟨hpc, hword, rfl⟩
  · exact .inl ⟨hpc, rfl⟩
  · exact ⟨rfl, hpc, rfl, hword⟩

theorem State.Inv.of_stepRequest (h : s.Inv) (hstep : stepRequest s = .next t) : t.Inv := by
  rcases stepRequest_cases s with ⟨hs, i, hfetch, heq⟩ | ⟨-, e, hfetch, heq⟩ | ⟨-, heq⟩ <;> rw [heq] at hstep
  · obtain ⟨u, hexec, rfl⟩ := finish_eq_next.1 hstep
    exact (h.of_exec hs (fetchInstr_eq_ok.1 hfetch) hexec).endStep
  · cases hstep
    exact h.of_justified rfl rfl rfl (justified_of_fetchInstr_error hfetch)
  · cases hstep
    exact h

/-- No recorded error depends on the keypad. -/
theorem Error.Justified.setKeys {e : Error} (h : e.Justified s) (now : Keypad) :
    e.Justified { s with keys := now } := by
  cases e <;> exact h

/-- A keypad change completes a key wait, takes it on with the new sample (R223), or leaves the status. -/
theorem State.Inv.setKeypad (h : s.Inv) (now : Keypad) : (s.setKeypad now).Inv := by
  have hjust := h.statusJustified
  unfold State.setKeypad
  cases hs : s.status <;> rw [hs] at hjust
  case running => exact h.of_justified rfl rfl rfl trivial
  case waitKey x prev =>
    obtain ⟨-, hentry⟩ := hjust
    dsimp only
    cases lowestKey (releasedKeys prev now) with
    | none => exact h.of_justified rfl rfl rfl ⟨rfl, hentry⟩
    | some key => exact h.of_justified rfl rfl rfl trivial
  case faulted e => exact h.of_justified rfl rfl rfl (hjust.setKeys now)

theorem inv_of_construct {p : InitParams} {image : List Byte} (h : construct p image s = .next t) : t.Inv := by
  by_cases hlen : image.length ≤ 3584
  · cases (construct_of_fits p hlen s).symm.trans h
    exact ⟨wf_constructMemory p hlen, Nat.zero_le _, List.forall_mem_nil _,
      show (0x200#16).toNat ≤ 0x10FE by decide, trivial⟩
  · simp [construct, imageFits_eq, hlen] at h

theorem State.Inv.of_hostAct {a : HostAction} (h : s.Inv) (hact : hostAct a s = .next t) : t.Inv := by
  cases a with
  | step => exact h.of_stepRequest hact
  | tick => cases hact; exact h.congr rfl rfl rfl rfl rfl rfl rfl
  | setKeypad keys => cases hact; exact h.setKeypad keys
  | readDisplay => cases hact; exact h
  | construct p image => exact inv_of_construct hact

end

/-- Settles O53: a step is a step request or another action of the host, and each keeps the invariant. -/
theorem stepKeepsTheInvariant : Obligations.StepKeepsTheInvariant := by
  intro s t h hstep
  rcases step_cases s with ⟨-, heq⟩ | ⟨a, rest, -, heq⟩ <;> rw [heq] at hstep
  · exact h.of_stepRequest hstep
  · have hqueue : { s with hostActs := rest }.Inv := h.congr rfl rfl rfl rfl rfl rfl rfl
    exact hqueue.of_hostAct hstep

/-- Settles O52: memory lists nothing, the stack is empty, and the block is Running at 0x200 (R37). -/
theorem resetMeetsTheInvariant : Obligations.ResetMeetsTheInvariant :=
  ⟨Memory.wf_nil, by decide, by simp, by decide, trivial⟩

end Sys2Proof.Machine
end

section
/-! PROOFS of the statements on memory and on the fetch through it (spec/20_memory.md). First the facts they need: what
a canonical memory lists, which instructions leave memory alone, and what a block store is read back as. -/

namespace Sys2Proof.Machine

/-! ## Canonical memories (R50, R61) -/

/-- What an address reads, where it is not what the address reads unlisted, stands in a cell. -/
theorem Memory.mem_of_read_ne_unlisted {m : Memory} {a : Nat} (h : m.read a ≠ unlistedByte a) :
    (a, m.read a) ∈ m := by
  induction m with
  | nil => exact absurd rfl h
  | cons c m ih =>
    unfold Memory.read at h ⊢
    split
    · rename_i hca
      subst hca
      exact List.mem_cons_self
    · rename_i hca
      rw [if_neg hca] at h
      exact List.mem_cons_of_mem _ (ih h)

/-- A canonical memory's cells are determined by what it reads. -/
theorem Memory.mem_iff_read {m : Memory} (h : m.wf) (c : Host.Cell) :
    c ∈ m ↔ m.read c.1 = c.2 ∧ c.2 ≠ unlistedByte c.1 := by
  constructor
  · intro hc
    exact ⟨Memory.read_eq_of_mem h hc, (h.2 c hc).2⟩
  · rintro ⟨hread, hlisted⟩
    have hmem := Memory.mem_of_read_ne_unlisted (hread ▸ hlisted : m.read c.1 ≠ unlistedByte c.1)
    rwa [hread] at hmem

/-- Settles O33: both memories list the same cells, and each lists them in rising order of address. -/
theorem canonicalMemoriesThatReadAlikeAreEqual : Obligations.CanonicalMemoriesThatReadAlikeAreEqual := by
  intro m n hm hn hread
  have hirrefl : Std.Irrefl fun c d : Host.Cell => c.1 < d.1 := ⟨fun c => Nat.lt_irrefl c.1⟩
  have hasymm : Std.Asymm fun c d : Host.Cell => c.1 < d.1 := ⟨fun _ _ => Nat.lt_asymm⟩
  refine hm.1.eq_of_mem_iff hn.1 fun c => ?_
  rw [Memory.mem_iff_read hm, Memory.mem_iff_read hn, hread]

/-! ## The data range of an instruction (R57, R58) -/

/-- Settles O31: each of the four instructions with a data access checks its range first. -/
theorem dataRangePastTheEndIsRejectedWhole : Obligations.DataRangePastTheEndIsRejectedWhole :=
  fun _ _ _ hlen hpast => exec_outOfBounds hlen hpast

/-- Memory is replaced by Fx33 and Fx55 alone, each of which stores at least one byte. -/
theorem exec_mem_of_stores_nothing {i : Instr} {s t : State} (hstore : storeLength i = 0) (h : exec i s = .next t) :
    t.mem = s.mem := by
  cases exec_effect h with
  | memory _ _ hi => obtain ⟨x, rfl | rfl⟩ := hi <;> simp [storeLength] at hstore
  | _ => rfl

/-- Settles O32: an error leaves the memory, and Fx33 and Fx55 complete by writing their bytes from I upwards. -/
theorem memoryChangesOnlyWhereStored : Obligations.MemoryChangesOnlyWhereStored := by
  intro i s t hwf h a ha
  rcases eq_of_exec_eq_next h with ⟨e, -, rfl⟩ | ⟨hno, rfl⟩
  · rfl
  cases i
  case ldB => exact Memory.read_writeBytes_outside hwf (inRange_of_no_ownError hno rfl) ha
  case stRegs x =>
    have hlen := s.length_regsTo x
    exact Memory.read_writeBytes_outside hwf (hlen ▸ inRange_of_no_ownError hno rfl) (hlen ▸ ha)
  all_goals rw [exec_mem_of_stores_nothing rfl h]

/-! ## The fetch of a requested step (R56, R63, R90) -/

/-- Settles O6: the request is served with the fetch of the state before it, and the end of the step strobes. -/
theorem stepRunsTheDecodedInstruction : Obligations.StepRunsTheDecodedInstruction := by
  intro s i hs hpc hdecode s0 t hrequest hexec
  have hfetch : fetchInstr s0 = .ok i := hrequest.fetchInstr_eq.trans (fetchInstr_eq_ok.2 ⟨hpc, hdecode⟩)
  rw [hrequest.step_of_fetch (hrequest.status_eq.trans hs) hfetch, hexec]
  rfl

/-- After a block store the r-th byte from I reads V[r] (R178). -/
theorem read_writeBytes_regsTo {s : State} {x : Nibble} (hwf : s.mem.wf) (hrange : s.i.toNat + (x.toNat + 1) ≤ 4096)
    {r : Nibble} (hr : r.toNat ≤ x.toNat) :
    (s.mem.writeBytes s.i.toNat (s.regsTo x)).read (s.i.toNat + r.toNat) = s.getV r := by
  have hlen := s.length_regsTo x
  rw [Memory.read_writeBytes_inside hwf (hlen ▸ hrange) (hlen ▸ Nat.lt_succ_of_le hr), State.getElem_regsTo,
    BitVec.ofNat_toNat, BitVec.setWidth_eq]

/-- Settles O34: the two bytes at the PC the store leaves are V0 and V1, and a requested step runs what they decode
to. -/
theorem theNextFetchSeesAStore : Obligations.TheNextFetchSeesAStore := by
  intro x s hwf hs hx hpc hi hrange
  refine ⟨_, exec_stRegs hrange, fun i t0 u hdecode hrequest hexec => ?_⟩
  have hnext : (s.pc + 2#16).toNat ≤ 0xFFE := by
    rw [(toNat_pc_add (hpc.trans (by decide))).1]
    exact Nat.add_le_add_right hpc 2
  have hV0 := read_writeBytes_regsTo hwf hrange (r := 0#4) (Nat.zero_le _)
  have hV1 := read_writeBytes_regsTo hwf hrange (r := 1#4) hx
  have hword : State.wordAt { s.advance with mem := s.mem.writeBytes s.i.toNat (s.regsTo x) } (s.pc + 2#16).toNat =
      wordOfBytes (s.getV 0#4) (s.getV 1#4) := by
    rw [← hi]
    exact congrArg₂ wordOfBytes hV0 hV1
  exact stepRunsTheDecodedInstruction { s.advance with mem := _ } i hs hnext
    ((congrArg decodeWord hword).trans hdecode) t0 u hrequest hexec

end Sys2Proof.Machine
end

section
/-! PROOFS of the statements on the encoding and on the step cycle (spec/30_encoding.md). First the round trip of the
decoder and the encoder; then what a requested step can raise, the key skips, and the runs of a block that is halted or
not Running. -/

namespace Sys2Proof

/-! ## Decoding an encoded instruction (R70, R73, R74) -/

theorem decodeWord_encode (i : Instr) : decodeWord (encode i) = some i := by
  cases i
  case cls | ret => rfl
  -- Format NNN.
  case jp | call | ldI | jpV0 => simp [encode, decodeWord]
  -- Formats XKK and XK: the byte is an operand, or the sub-operation of op 0xE and 0xF.
  case seK | sneK | ldK | addK | rnd => simp [encode, decodeWord]
  case skp | sknp => simp [encode, decodeWord, decodeKey]
  case ldVDt | ldVK | ldDtV | ldStV | addI | ldF | ldB | stRegs | ldRegs => simp [encode, decodeWord, decodeMisc]
  -- Format XYN: the last nibble is an operand, 0, or the sub-operation of op 0x8.
  case seV | sneV | drw => simp [encode, decodeWord]
  case ldV | or | and | xor | addV | sub | shr | subn | shl => simp [encode, decodeWord, decodeAlu]

/-- Settles O2: the two bytes of a word are read back as the word, and the word decodes to the instruction. -/
theorem decodeOfEncodedBytesIsTheInstruction : Obligations.DecodeOfEncodedBytesIsTheInstruction := by
  intro i rest
  simp [encodeBytes, bytesOfWord, decodeBytes, decodeWord_encode]

/-! ## Encoding a decoded word (R77) -/

section
variable {w : Word} {op : Nibble}

theorem fmtNNN_of_toNat_opOf (h : (opOf w).toNat = op.toNat) : fmtNNN op (addrOf w) = w := by
  rw [← BitVec.eq_of_toNat_eq h, fmtNNN_fields]

theorem fmtXKK_of_toNat_opOf (h : (opOf w).toNat = op.toNat) : fmtXKK op (xOf w) (kOf w) = w := by
  rw [← BitVec.eq_of_toNat_eq h, fmtXKK_fields]

theorem fmtXYN_of_toNat_opOf (h : (opOf w).toNat = op.toNat) : fmtXYN op (xOf w) (yOf w) (nOf w) = w := by
  rw [← BitVec.eq_of_toNat_eq h, fmtXYN_fields]

end

theorem encode_of_decodeAlu {x y n : Nibble} {i : Instr} (h : decodeAlu x y n = some i) :
    encode i = fmtXYN 0x8#4 x y n := by
  unfold decodeAlu at h
  split at h <;> cases h <;> rename_i hsub <;> exact congrArg (fmtXYN 0x8#4 x y) (BitVec.eq_of_toNat_eq hsub.symm)

theorem encode_of_decodeKey {x : Nibble} {k : Byte} {i : Instr} (h : decodeKey x k = some i) :
    encode i = fmtXKK 0xE#4 x k := by
  unfold decodeKey at h
  split at h <;> cases h <;> rename_i hsub <;> exact congrArg (fmtXKK 0xE#4 x) (BitVec.eq_of_toNat_eq hsub.symm)

theorem encode_of_decodeMisc {x : Nibble} {k : Byte} {i : Instr} (h : decodeMisc x k = some i) :
    encode i = fmtXKK 0xF#4 x k := by
  unfold decodeMisc at h
  split at h <;> cases h <;> rename_i hsub <;> exact congrArg (fmtXKK 0xF#4 x) (BitVec.eq_of_toNat_eq hsub.symm)

/-- Settles O3, by the op nibble: the word is rebuilt from it and the fields the instruction carries. -/
theorem encodeOfDecodedWordIsTheWord : Obligations.EncodeOfDecodedWordIsTheWord := by
  intro w i h
  unfold decodeWord at h
  split at h
  -- Op 0x0: the whole word is compared.
  case h_1 =>
    split_ifs at h with hcls hret
    · cases h; exact hcls.symm
    · cases h; exact hret.symm
  -- Ops 0x1, 0x2, 0xA, 0xB: format NNN.
  case h_2 hop | h_3 hop | h_11 hop | h_12 hop => cases h; exact fmtNNN_of_toNat_opOf hop
  -- Ops 0x3, 0x4, 0x6, 0x7, 0xC: format XKK.
  case h_4 hop | h_5 hop | h_7 hop | h_8 hop | h_13 hop => cases h; exact fmtXKK_of_toNat_opOf hop
  -- Ops 0x5, 0x9: format XYN with n = 0.
  case h_6 hop | h_10 hop =>
    split_ifs at h with hn
    cases h
    exact (congrArg (fmtXYN _ _ _) hn.symm).trans (fmtXYN_of_toNat_opOf hop)
  -- Ops 0x8, 0xD: format XYN.
  case h_9 hop => exact (encode_of_decodeAlu h).trans (fmtXYN_of_toNat_opOf hop)
  case h_14 hop => cases h; exact fmtXYN_of_toNat_opOf hop
  -- Ops 0xE, 0xF: format XK.
  case h_15 hop => exact (encode_of_decodeKey h).trans (fmtXKK_of_toNat_opOf hop)
  case h_16 hop => exact (encode_of_decodeMisc h).trans (fmtXKK_of_toNat_opOf hop)
  case h_17 => cases h

/-! ## The valid words (R75 to R77) -/

theorem isSome_decodeAlu (x y n : Nibble) :
    (decodeAlu x y n).isSome = (decide (n.toNat ≤ 7) || decide (n.toNat = 0xE)) := by
  unfold decodeAlu
  split
  case h_10 => simp only [Option.isSome_none]; grind
  all_goals simp [*]

theorem isSome_decodeKey (x : Nibble) (k : Byte) :
    (decodeKey x k).isSome = (decide (k.toNat = 0x9E) || decide (k.toNat = 0xA1)) := by
  unfold decodeKey
  split <;> simp_all

theorem isSome_decodeMisc (x : Nibble) (k : Byte) :
    (decodeMisc x k).isSome = [0x07, 0x0A, 0x15, 0x18, 0x1E, 0x29, 0x33, 0x55, 0x65].contains k.toNat := by
  unfold decodeMisc
  split <;> simp_all

/-- Settles O4, by the op nibble, with both sides on the fields of the word. -/
theorem decoderAcceptsExactlyTheValidWords : Obligations.DecoderAcceptsExactlyTheValidWords := by
  intro w
  have hdiv : w.toNat / 0x1000 = (opOf w).toNat := by rw [toNat_opOf]; omega
  simp only [validWord, hdiv, ← toNat_nOf, ← toNat_kOf]
  unfold decodeWord
  split
  -- Op 0x0, and ops 0x5 and 0x9, where n must be 0.
  case h_1 hop | h_6 hop | h_10 hop =>
    simp only [hop, BitVec.toNat_eq]
    split_ifs <;> simp_all
  -- Ops 0x8, 0xE, 0xF: the sub-operation.
  case h_9 hop => simp [hop, isSome_decodeAlu]
  case h_15 hop => simp [hop, isSome_decodeKey]
  case h_16 hop => simp [hop, isSome_decodeMisc]
  -- There is no op above 0xF.
  case h_17 =>
    have hlt := (opOf w).isLt
    simp only [imp_false] at *
    omega
  -- Every word of the other ops is valid.
  all_goals simp [*]

/-- Settles O1, by running the decoder on each word. -/
theorem writtenOutWordsDecode : Obligations.WrittenOutWordsDecode := by
  unfold Obligations.WrittenOutWordsDecode
  decide

end Sys2Proof

namespace Sys2Proof.Machine

/-! ## The errors of a requested step (R76, R79, R92, R240, R243) -/

/-- Settles O7, from what the fetch of a requested step answers. -/
theorem fetchErrorsAreRaisedInOrder : Obligations.FetchErrorsAreRaisedInOrder := by
  intro s s0 hs hrequest
  have hs0 : s0.status = .running := hrequest.status_eq.trans hs
  refine ⟨fun hpc => ?_, fun hpc hword => ?_⟩
  · exact hrequest.step_of_fetch_error hs0 (hrequest.fetchInstr_eq.trans (fetchInstr_eq_error.2 (.inl ⟨hpc, rfl⟩)))
  · exact hrequest.step_of_fetch_error hs0
      (hrequest.fetchInstr_eq.trans (fetchInstr_eq_error.2 (.inr ⟨hpc, hword, rfl⟩)))

/-- The other words of op 0x0 decode to nothing. -/
theorem decodeWord_eq_none_of_op_zero {w : Word} (hop : w.toNat < 0x1000) (hcls : w ≠ 0x00E0#16)
    (hret : w ≠ 0x00EE#16) : decodeWord w = none := by
  have hzero : (opOf w).toNat = 0x0 := by rw [toNat_opOf]; omega
  simp only [decodeWord, hzero, hcls, hret, if_false]

/-- Settles O5: the whole word is compared, and the fetch of an invalid one is an error (O7). -/
theorem zeroOpSpaceHoldsTwoInstructions : Obligations.ZeroOpSpaceHoldsTwoInstructions := by
  refine ⟨rfl, rfl, fun w hop hcls hret => ?_⟩
  have hnone := decodeWord_eq_none_of_op_zero hop hcls hret
  refine ⟨hnone, fun s s0 hs hrequest hpc hword => ?_⟩
  subst hword
  exact ⟨_, (fetchErrorsAreRaisedInOrder s s0 hs hrequest).2 hpc hnone, rfl⟩

theorem State.endStep_of_faulted {s : State} {e : Error} (h : s.status = .faulted e) : s.endStep = s :=
  if_neg (by simp [h])

/-- Settles O11: an error is one of the fetch or the instruction's own, and each is raised in the state before the
step; the end of the step adds no strobe to it. -/
theorem errorsArePrecise : Obligations.ErrorsArePrecise := by
  intro s s0 t e hs hrequest hstep hfault
  have hs0 : s0.status = .running := hrequest.status_eq.trans hs
  rw [hrequest.step_eq] at hstep
  rcases stepRequest_cases s0 with ⟨-, i, -, heq⟩ | ⟨-, e', -, heq⟩ | ⟨hdead, -⟩
  · obtain ⟨u, hexec, rfl⟩ := finish_eq_next.1 (heq.symm.trans hstep)
    rw [State.endStep_status] at hfault
    rw [State.endStep_of_faulted hfault]
    exact ((exec_error hs0 hexec e).1 hfault).2
  · cases heq.symm.trans hstep
    cases hfault
    rfl
  · exact absurd hs0 hdead

/-! ## The key skips (R212, R214, R253) -/

/-- The whole effect of an instruction that ends in a skip. -/
theorem exec_of_skipIf {i : Instr} {s : State} {c : Bool} (h : exec i s = .next (s.advance.skipIf c)) :
    ∃ t, exec i s = .next t ∧ t.pc = (if c then s.pc + 4#16 else s.pc + 2#16) ∧ t = { s with pc := t.pc } ∧
      SameMemory s t := by
  cases c
  · exact ⟨_, h, rfl, rfl, fun _ => rfl⟩
  · exact ⟨_, h, pc_add_add s.pc, rfl, fun _ => rfl⟩

/-- Settles O41: the two skips read the same level and skip on opposite values of it. -/
theorem keySkipsReadTheKeypadLevel : Obligations.KeySkipsReadTheKeypadLevel := by
  intro x s
  refine ⟨fun hkey => ⟨exec_of_skipIf (exec_skp hkey), ?_⟩,
    fun hkey => ⟨exec_skp_invalid hkey, exec_sknp_invalid hkey⟩⟩
  simpa only [State.keyDown, Bool.not_eq_true', ← Bool.not_eq_true, ite_not] using exec_of_skipIf (exec_sknp hkey)

/-! ## A block halted at a self-jump (R94, R292) -/

/-- The word of a jump to an address is 0x1000 with the address in its low bits. -/
theorem fmtNNN_one_addrOf {pc : Word} (h : pc.toNat < 0x1000) : fmtNNN 0x1#4 (addrOf pc) = 0x1000#16 ||| pc := by
  apply BitVec.eq_of_toNat_eq
  rw [toNat_fmtNNN, toNat_addrOf, BitVec.toNat_or, Nat.mod_eq_of_lt h]
  exact Nat.two_pow_add_eq_or_of_lt (i := 12) h 1

theorem zextAddr_addrOf {pc : Word} (h : pc.toNat < 0x1000) : zextAddr (addrOf pc) = pc :=
  BitVec.eq_of_toNat_eq (by rw [toNat_zextAddr, toNat_addrOf, Nat.mod_eq_of_lt h])

theorem Halted.fetchInstr_eq {s : State} (h : Halted s) : fetchInstr s = .ok (.jp (addrOf s.pc)) := by
  obtain ⟨-, hpc, hword⟩ := h
  have hdecode : decodeWord (0x1000#16 ||| s.pc) = some (.jp (addrOf s.pc)) := by
    rw [← fmtNNN_one_addrOf (Nat.lt_succ_of_le (hpc.trans (by decide)))]
    exact decodeWord_encode (.jp (addrOf s.pc))
  exact fetchInstr_eq_ok.2 ⟨hpc, hword ▸ hdecode⟩

theorem Halted.exec_eq {s : State} (h : Halted s) : exec (.jp (addrOf s.pc)) s = .next s := by
  obtain ⟨-, hpc, -⟩ := h
  show Host.Outcome.next { s with pc := zextAddr (addrOf s.pc) } = .next s
  rw [zextAddr_addrOf (Nat.lt_succ_of_le (hpc.trans (by decide)))]

/-- A host that only requests steps requests one now. -/
theorem stepRequested_of_forall_step {s : State} (h : ∀ a ∈ s.hostActs, a = .step) :
    StepRequested s { s with hostActs := s.hostActs.tail } := by
  rcases hacts : s.hostActs with _ | ⟨a, rest⟩
  · exact .inl ⟨hacts, by rw [List.tail_nil, ← hacts]⟩
  · rw [h a (hacts ▸ List.mem_cons_self)] at hacts
    exact .inr ⟨rest, hacts, rfl⟩

/-- The state one requested step of a halted block leaves. -/
theorem Halted.step_eq {s : State} (h : Halted s) (hacts : ∀ a ∈ s.hostActs, a = .step) :
    step s = .next { s with hostActs := s.hostActs.tail, stepDones := s.stepDones + 1 } := by
  have h0 : Halted { s with hostActs := s.hostActs.tail } := h
  rw [(stepRequested_of_forall_step hacts).step_of_fetch h0.1 h0.fetchInstr_eq, h0.exec_eq, finish_next,
    State.endStep_running h0.1]
  rfl

/-- Settles O51, by induction on the number of steps: the state one step leaves is halted again. -/
theorem selfJumpOnlyStrobes : Obligations.SelfJumpOnlyStrobes := by
  intro k
  induction k with
  | zero => exact fun _ _ _ => rfl
  | succ k ih =>
    intro s h hacts
    have h' : Halted { s with hostActs := s.hostActs.tail, stepDones := s.stepDones + 1 } := h
    rw [run_succ k (h.step_eq hacts), ih _ h' fun a ha => hacts a (List.mem_of_mem_tail ha)]
    simp [Nat.add_assoc, Nat.add_comm 1]

/-! ## A block that is not Running (R91, R220, R240, R250) -/

/-- What the host may do and leave a block that is not Running as it is: everything but a construction and, in a key
wait, a keypad change. -/
def LeavesAlone (s : State) (a : HostAction) : Prop :=
  a = .step ∨ a = .tick ∨ a = .readDisplay ∨ (Faulted s ∧ ∃ keys, a = .setKeypad keys)

/-- The state `t` differs from `s` in the host's queue and in what the host's actions `acts` move: the timers by the
ticks among them, and the keypad only where they set it. -/
structure MovedByHost (acts : List HostAction) (s t : State) : Prop where
  eq : t = { s with hostActs := t.hostActs, dt := t.dt, st := t.st, keys := t.keys }
  dt : t.dt.toNat = s.dt.toNat - acts.count .tick
  st : t.st.toNat = s.st.toNat - acts.count .tick
  keys : (∀ keys, .setKeypad keys ∉ acts) → t.keys = s.keys

section
variable {acts acts' : List HostAction} {s t u : State}

theorem MovedByHost.refl (s : State) : MovedByHost [] s s := ⟨rfl, rfl, rfl, fun _ => rfl⟩

theorem MovedByHost.trans (h : MovedByHost acts s t) (h' : MovedByHost acts' t u) :
    MovedByHost (acts ++ acts') s u where
  eq := by rw [h'.eq, h.eq]
  dt := by rw [h'.dt, h.dt, List.count_append, Nat.sub_sub]
  st := by rw [h'.st, h.st, List.count_append, Nat.sub_sub]
  keys hno := by
    simp only [List.mem_append, not_or] at hno
    rw [h'.keys fun keys => (hno keys).2, h.keys fun keys => (hno keys).1]

theorem MovedByHost.status_eq (h : MovedByHost acts s t) : t.status = s.status := by rw [h.eq]

theorem MovedByHost.leavesAlone (h : MovedByHost acts s t) {a : HostAction} (ha : LeavesAlone s a) :
    LeavesAlone t a := by
  simpa only [LeavesAlone, Faulted, h.status_eq] using ha

theorem State.setKeypad_of_faulted {e : Error} (h : s.status = .faulted e) (now : Keypad) :
    s.setKeypad now = { s with keys := now } := by
  simp only [State.setKeypad, h]

/-- One action of the host, on a block that is not Running. -/
theorem exists_hostAct_eq_next {a : HostAction} (hs : s.status ≠ .running) (ha : LeavesAlone s a)
    (rest : List HostAction) :
    ∃ t, hostAct a { s with hostActs := rest } = .next t ∧ t.hostActs = rest ∧ MovedByHost [a] s t := by
  rcases ha with rfl | rfl | rfl | ⟨⟨e, he⟩, keys, rfl⟩
  · exact ⟨_, stepRequest_of_not_running hs, rfl, rfl, by simp, by simp, fun _ => rfl⟩
  · exact ⟨_, rfl, rfl, rfl, by simp [toNat_tickTimer], by simp [toNat_tickTimer], fun _ => rfl⟩
  · exact ⟨_, rfl, rfl, rfl, by simp, by simp, fun _ => rfl⟩
  · exact ⟨_, congrArg Host.Outcome.next (State.setKeypad_of_faulted (s := { s with hostActs := rest }) he keys), rfl,
      rfl, by simp, by simp, fun hno => absurd List.mem_cons_self (hno keys)⟩

theorem exists_step_eq_next (hs : s.status ≠ .running) (hacts : ∀ a ∈ s.hostActs, LeavesAlone s a) :
    ∃ t, step s = .next t ∧ t.hostActs = s.hostActs.drop 1 ∧ MovedByHost (s.hostActs.take 1) s t := by
  rcases step_cases s with ⟨hempty, heq⟩ | ⟨a, rest, hqueue, heq⟩
  · rw [hempty, heq, stepRequest_of_not_running hs]
    exact ⟨s, rfl, hempty, .refl s⟩
  · rw [heq, hqueue]
    exact exists_hostAct_eq_next hs (hacts a (hqueue ▸ List.mem_cons_self)) rest

theorem exists_run_eq_next (k : Nat) (hs : s.status ≠ .running) (hacts : ∀ a ∈ s.hostActs, LeavesAlone s a) :
    ∃ t : State, Host.Core.run Sys2Proof.core k s = .next t ∧ t.hostActs = s.hostActs.drop k ∧
      MovedByHost (s.hostActs.take k) s t := by
  induction k generalizing s with
  | zero => exact ⟨s, rfl, rfl, .refl s⟩
  | succ k ih =>
    obtain ⟨t, hstep, hqueue, hmoved⟩ := exists_step_eq_next hs hacts
    obtain ⟨u, hrun, hqueue', hmoved'⟩ := ih (s := t) (hmoved.status_eq ▸ hs) fun a ha =>
      hmoved.leavesAlone (hacts a (List.mem_of_mem_drop (hqueue ▸ ha)))
    refine ⟨u, (run_succ k hstep).trans hrun, ?_, ?_⟩
    · rw [hqueue', hqueue, List.drop_drop, Nat.add_comm]
    · rw [Nat.add_comm, List.take_add, ← hqueue]
      exact hmoved.trans hmoved'

end

/-- Settles O8: a run serves the first k actions of the queue, and the block, the random source and the strobes are no
part of what those move. -/
theorem suspendedOrDeadBlockNeverMoves : Obligations.SuspendedOrDeadBlockNeverMoves := by
  intro k s hs hacts
  obtain ⟨t, hrun, hqueue, hmoved⟩ := exists_run_eq_next k hs hacts
  have hrest : SameBlock s t ∧ t.status = s.status ∧ t.stepDones = s.stepDones ∧ t.randAnswers = s.randAnswers ∧
      t.randDraws = s.randDraws := by
    rw [hmoved.eq]
    exact ⟨⟨rfl, rfl, rfl, rfl, rfl, rfl, rfl⟩, rfl, rfl, rfl, rfl⟩
  obtain ⟨hblock, hstatus, hstrobes, hanswers, hdraws⟩ := hrest
  exact ⟨t, hrun, hblock, hstatus, hstrobes, hanswers, hdraws, hqueue, hmoved.dt, hmoved.st, hmoved.keys⟩

end Sys2Proof.Machine
end

section
/-! PROOFS of the statements on jumps, RET and the comparing skips (spec/40_control_flow.md). First the fetch their
targets can lead to, and the words that are no skips. -/

namespace Sys2Proof.Machine

/-! ## A target past the last word (R79) -/

/-- Jumps and RET set PC freely; where that is past 0xFFE, the fetch of the next requested step faults. -/
theorem exists_step_outOfBounds {t t0 : State} (hrequest : StepRequested t t0) (ht : t.status = .running)
    (hpc : 0xFFE < t.pc.toNat) :
    ∃ u, step t = .next u ∧ u.status = .faulted (.outOfBounds (max t.pc.toNat 4096)) :=
  ⟨_, (fetchErrorsAreRaisedInOrder t t0 ht hrequest).1 hpc, rfl⟩

/-! ## The statements -/

/-- Settles O14: the sum is below 2^16, so it is the one of the numbers. -/
theorem jpV0AddsV0WithoutWrapping : Obligations.JpV0AddsV0WithoutWrapping := by
  intro addr s
  exact ⟨_, rfl, toNat_zextAddr_add_zextByte addr (s.getV 0#4), rfl, fun _ => rfl,
    fun hpc hs _ hrequest => exists_step_outOfBounds hrequest hs hpc⟩

/-- Settles O16, from the two equations of RET. -/
theorem retGoesToThePoppedEntry : Obligations.RetGoesToThePoppedEntry := by
  intro s
  refine ⟨decodeWord_encode .ret, fun rest w hstack => ?_, fun hempty => ⟨_, exec_ret_empty hempty, rfl⟩⟩
  refine ⟨_, exec_ret hstack, rfl, rfl, rfl, fun _ => rfl, fun hw hs _ hrequest => ?_⟩
  obtain ⟨u, hstep, hfault⟩ := exists_step_outOfBounds hrequest hs hw
  exact ⟨u, _, hstep, hfault⟩

/-- Settles O13: every address is below 2^16, and 0xFFF is past the last word. -/
theorem jpSetsPc : Obligations.JpSetsPc := by
  intro addr s
  refine ⟨decodeWord_encode (.jp addr), _, rfl, toNat_zextAddr addr, rfl, fun _ => rfl, ?_⟩
  rintro rfl hs _ hrequest
  exact exists_step_outOfBounds hrequest hs (show 0xFFE < (zextAddr 0xFFF#12).toNat by decide)

/-- A word 5xyn or 9xyn is a skip only with n = 0 (R77, R108, R110). -/
theorem decodeWord_fmtXYN_eq_none {op x y n : Nibble} (hop : op = 0x5#4 ∨ op = 0x9#4) (hn : n ≠ 0#4) :
    decodeWord (fmtXYN op x y n) = none := by
  rcases hop with rfl | rfl <;> simp [decodeWord, hn]

/-- Settles O18: each meaning ends in a skip on its comparison, and a word with n not 0 decodes to nothing. -/
theorem comparingSkipsGoPastTheNextInstruction : Obligations.ComparingSkipsGoPastTheNextInstruction := by
  intro x y k s
  refine ⟨decodeWord_encode (.seK x k), decodeWord_encode (.sneK x k), decodeWord_encode (.seV x y),
    decodeWord_encode (.sneV x y), ?_, ?_, ?_, ?_, fun n w s0 hn hform hs hrequest hpc hword => ?_⟩
  · simpa only [beq_iff_eq] using exec_of_skipIf (i := .seK x k) (s := s) rfl
  · simpa only [bne_iff_ne, ite_not] using exec_of_skipIf (i := .sneK x k) (s := s) rfl
  · simpa only [beq_iff_eq] using exec_of_skipIf (i := .seV x y) (s := s) rfl
  · simpa only [bne_iff_ne, ite_not] using exec_of_skipIf (i := .sneV x y) (s := s) rfl
  · have hnone : decodeWord w = none := by
      rcases hform with rfl | rfl
      · exact decodeWord_fmtXYN_eq_none (.inl rfl) hn
      · exact decodeWord_fmtXYN_eq_none (.inr rfl) hn
    subst hword
    exact ⟨_, (fetchErrorsAreRaisedInOrder s s0 hs hrequest).2 hpc hnone, rfl⟩

end Sys2Proof.Machine
end

section
/-! PROOFS of the statements on the plain writes of a general register (spec/41_register_immediate.md, and the register
copy of spec/42_alu.md). -/

namespace Sys2Proof.Machine

/-! ## A register write and nothing else (R130, R132, R141) -/

/-- The whole effect of an instruction that writes one general register and goes to the next instruction. -/
theorem exec_of_setV {i : Instr} {s : State} {x : Nibble} {b : Byte} (h : exec i s = .next (s.advance.setV x b)) :
    ∃ t, exec i s = .next t ∧ t.getV x = b ∧ SameRegsExcept [x] s t ∧ t.pc = s.pc + 2#16 ∧
      t = { s with pc := t.pc, v := t.v } ∧ SameMemory s t := by
  refine ⟨_, h, State.getV_setV_self _ x b, fun r hr => ?_, rfl, rfl, fun _ => rfl⟩
  exact State.getV_setV_ne s.advance b (List.ne_of_not_mem_cons hr)

/-- Settles O20: each of the three meanings is one register write, VF being written only as the destination x; the
addition is the one of bytes, which wraps at 256. -/
theorem plainRegisterWritesTouchNoFlag : Obligations.PlainRegisterWritesTouchNoFlag := by
  intro x y k s
  refine ⟨decodeWord_encode (.ldK x k), decodeWord_encode (.addK x k), decodeWord_encode (.ldV x y),
    exec_of_setV rfl, ?_, exec_of_setV rfl⟩
  obtain ⟨t, hexec, hsum, hframe⟩ := exec_of_setV (i := .addK x k) (s := s) rfl
  exact ⟨t, hexec, hsum ▸ BitVec.toNat_add _ _, hframe⟩

end Sys2Proof.Machine
end

section
/-! PROOFS of the statements on Fx33, Fx55 and Fx65 (spec/43_index_memory.md). First what the decimal digits of a byte
are as numbers, and where a store leaves them. -/

namespace Sys2Proof.Machine

/-! ## Decimal digits (R176) -/

/-- A byte is below 256, so each of the three digits fits a byte and the hundreds need no reduction. -/
theorem map_toNat_bcdDigits (b : Byte) :
    (bcdDigits b).map BitVec.toNat = [b.toNat / 100, b.toNat / 10 % 10, b.toNat % 10] := by
  have hb := b.isLt
  simp only [bcdDigits, List.map_cons, List.map_nil, BitVec.toNat_ofNat, List.cons.injEq, and_true]
  omega

/-- After the digits of a byte were stored from `base`, the j-th byte from there reads the j-th digit. -/
theorem toNat_read_writeBytes_bcdDigits {m : Memory} (hwf : m.wf) {base : Nat} (hrange : base + 3 ≤ 4096) (b : Byte)
    {j : Nat} (hj : j < 3) :
    ((m.writeBytes base (bcdDigits b)).read (base + j)).toNat =
      [b.toNat / 100, b.toNat / 10 % 10, b.toNat % 10][j] := by
  simp only [← map_toNat_bcdDigits, List.getElem_map]
  exact congrArg BitVec.toNat (Memory.read_writeBytes_inside hwf (bytes := bcdDigits b) hrange hj)

/-! ## The statements -/

/-- Settles O27: the three bytes from I read the digits, whose weighted sum is the byte again. -/
theorem decimalDigitsAreStored : Obligations.DecimalDigitsAreStored := by
  intro x s hwf hrange
  have hhundreds := toNat_read_writeBytes_bcdDigits hwf hrange (s.getV x) (j := 0) (by decide)
  have htens := toNat_read_writeBytes_bcdDigits hwf hrange (s.getV x) (j := 1) (by decide)
  have hones := toNat_read_writeBytes_bcdDigits hwf hrange (s.getV x) (j := 2) (by decide)
  simp only [Nat.add_zero, List.getElem_cons_zero, List.getElem_cons_succ] at hhundreds htens hones
  refine ⟨_, exec_ldB x hrange, ?_, ?_, ?_, memoryChangesOnlyWhereStored (.ldB x) s _ hwf (exec_ldB x hrange), rfl, rfl⟩
  · rw [hhundreds, htens, hones]; omega
  · rw [htens]; omega
  · rw [hones]; omega

/-- Settles O28: every byte from I to I + x reads its register back, and outside that range nothing is stored. -/
theorem registersAreStored : Obligations.RegistersAreStored := by
  intro x s hwf hrange
  exact ⟨_, exec_stRegs hrange, fun _ hr => read_writeBytes_regsTo hwf hrange hr,
    memoryChangesOnlyWhereStored (.stRegs x) s _ hwf (exec_stRegs hrange), rfl, rfl⟩

/-- Settles O29: the load is one replacement of V, from the memory it leaves alone. -/
theorem registersAreLoaded : Obligations.RegistersAreLoaded := by
  intro x s hrange
  exact ⟨_, exec_ldRegs hrange, State.getV_loadRegs s.advance x s.i.toNat, rfl, rfl, fun _ => rfl⟩

/-- Settles O30: what the load reads at I + q is what the store left there. -/
theorem blockLoadUndoesBlockStore : Obligations.BlockLoadUndoesBlockStore := by
  intro x s u hwf hrange
  obtain ⟨t, hstore, hstored, -⟩ := registersAreStored x s hwf hrange
  refine ⟨t, hstore, fun hmem hi => ?_⟩
  obtain ⟨r, hload, hloaded, -⟩ := registersAreLoaded x u (hi ▸ hrange)
  refine ⟨r, hload, fun q hq => ?_⟩
  rw [hloaded, if_pos hq, hmem, hi, hstored q hq]

end Sys2Proof.Machine
end

section
/-! PROOFS of the statements on the display (spec/44_display.md). First the wrapped origin of a sprite, and what a sprite
without rows covers. -/

namespace Sys2Proof.Machine

/-! ## The origin and the reach of a sprite (R191 to R194, R198) -/

/-- The low bits of a coordinate wrap it alike, whether it is read as signed or as unsigned (R192). -/
theorem toNat_toInt_emod_displayW (b : Byte) : (b.toInt % 64).toNat = originColumn b := by
  show _ = b.toNat % 64
  rw [BitVec.toInt_eq_toNat_cond]; split <;> omega

theorem toNat_toInt_emod_displayH (b : Byte) : (b.toInt % 32).toNat = originRow b := by
  show _ = b.toNat % 32
  rw [BitVec.toInt_eq_toNat_cond]; split <;> omega

@[simp] theorem spriteBit_nil (ox oy c r : Nat) : spriteBit ox oy [] c r = false := by simp [spriteBit]

/-- A set pixel stands in the grid. -/
theorem Display.lt_of_pixel {d : Display} {c r : Nat} (h : d.pixel c r = true) : c < 64 ∧ r < 32 := by
  by_contra hout
  rw [Display.pixel_outside d (mt And.symm hout)] at h
  cases h

/-! ## The statements -/

/-- Settles O35: CLS replaces the display by the clear one. -/
theorem clsUnsetsEveryPixel : Obligations.ClsUnsetsEveryPixel :=
  ⟨decodeWord_encode .cls, fun _ => ⟨_, rfl, fun c r _ _ => Display.pixel_clear c r, rfl, rfl, fun _ => rfl⟩⟩

/-- Settles O36, from what a whole sprite does to a pixel and where it collides; a collision lies in the grid, since
a pixel set before does. -/
theorem drwXorsTheWrappedAndClippedSprite : Obligations.DrwXorsTheWrappedAndClippedSprite := by
  intro x y n s hrange
  refine ⟨_, exec_drw x y hrange, ?_⟩
  rw [toNat_toInt_emod_displayW, toNat_toInt_emod_displayH]
  refine ⟨fun c r hc hr => pixel_plotRows _ _ _ _ hc hr, ?_, ?_, fun r hr => ?_, rfl, rfl, fun _ => rfl⟩
  · rw [State.getV_setV_self, flagByte_eq_one, flagByte_eq_zero]
    exact Bool.eq_false_or_eq_true _
  · rw [State.getV_setV_self, flagByte_eq_one, collide_plotRows]
    constructor
    · rintro (h | ⟨c, r, hbit, hset⟩)
      · cases h
      · obtain ⟨hc, hr⟩ := Display.lt_of_pixel hset
        exact ⟨c, r, hc, hr, hbit, hset⟩
    · rintro ⟨c, r, -, -, hbit, hset⟩
      exact .inr ⟨c, r, hbit, hset⟩
  · exact State.getV_setV_ne _ _ (by simpa using hr)

/-- Settles O37: the second draw has the sprite and the origin of the first, so a pixel is XORed with one bit twice; a
pixel under a set bit is set between the draws where it was unset before them. -/
theorem drawingTwiceRestoresTheDisplay : Obligations.DrawingTwiceRestoresTheDisplay := by
  intro x y n s hrange hx hy
  obtain ⟨t, ht, htpixel, -, -, hregs, -, hframe, -⟩ := drwXorsTheWrappedAndClippedSprite x y n s hrange
  have hi : t.i = s.i := by rw [hframe]
  have hmem : t.mem = s.mem := by rw [hframe]
  obtain ⟨u, hu, hupixel, -, hcollide, -⟩ := drwXorsTheWrappedAndClippedSprite x y n t (by rwa [hi])
  rw [hregs x (by simpa using hx), hregs y (by simpa using hy), hi, hmem] at hupixel hcollide
  refine ⟨t, u, ht, hu, Display.ext_pixel fun c r hc hr => ?_, hcollide.trans ⟨?_, ?_⟩⟩
  · rw [hupixel c r hc hr, htpixel c r hc hr, Bool.xor_assoc, Bool.xor_self, Bool.xor_false]
  · rintro ⟨c, r, hc, hr, hbit, hset⟩
    refine ⟨c, r, ?_, hset⟩
    simpa [htpixel c r hc hr, hbit] using hset
  · rintro ⟨c, r, hunset, hset⟩
    obtain ⟨hc, hr⟩ := Display.lt_of_pixel hset
    refine ⟨c, r, hc, hr, ?_, hset⟩
    simpa [htpixel c r hc hr, hunset] using hset

/-- Settles O38: the draw reads the coordinates through the origin alone, which keeps their low bits. -/
theorem originsWrapIntoTheGrid : Obligations.OriginsWrapIntoTheGrid := by
  intro x y n s cx cy hxy hrange hcx hcy
  have hcolumn : originColumn (((s.setV x cx).setV y cy).getV x) = originColumn (s.getV x) := by
    rw [State.getV_setV_ne _ _ hxy, State.getV_setV_self]
    exact hcx
  have hrow : originRow (((s.setV x cx).setV y cy).getV y) = originRow (s.getV y) := by
    rw [State.getV_setV_self]
    exact hcy
  refine ⟨_, _, exec_drw x y hrange, exec_drw x y hrange, ?_, ?_⟩ <;> rw [hcolumn, hrow]
  · rfl
  · simp only [State.getV_setV_self]; rfl

/-- Settles O39: without a row the sprite covers no pixel, so none is inverted and none collides (O36). -/
theorem zeroRowSpriteOnlyClearsVF : Obligations.ZeroRowSpriteOnlyClearsVF := by
  intro x y s hi
  obtain ⟨t, ht, hpixel, hflag, hcollide, hregs, hpc, hframe, hmem⟩ :=
    drwXorsTheWrappedAndClippedSprite x y 0#4 s hi
  have hrows : s.mem.readBytes s.i.toNat (0#4).toNat = [] := rfl
  simp only [hrows, spriteBit_nil, Bool.xor_false] at hpixel hcollide
  have hdisp : t.disp = s.disp := Display.ext_pixel hpixel
  have hnone : t.getV regF ≠ 1#8 := by simp [hcollide]
  rw [hdisp] at hframe
  exact ⟨t, ht, hflag.resolve_left hnone, hregs, hpc, hframe, hmem⟩

end Sys2Proof.Machine
end

section
/-! PROOFS of the statements on the random source, the key wait and the timers (spec/45_io.md). First what a random byte
is taken from, and what a keypad change does to a key wait. -/

namespace Sys2Proof.Machine

/-! ## The random source (R210, R252) -/

section
variable {s : State} {b : Byte} {rest : List Byte}

theorem State.randByte_of_answer (h : s.randAnswers = b :: rest) : s.randByte = b := by
  simp only [State.randByte, h]

theorem State.randByte_of_no_answer (h : s.randAnswers = []) : s.randByte = Config.randomByte s.randDraws := by
  simp only [State.randByte, h]

theorem State.afterRand_of_answer (h : s.randAnswers = b :: rest) : s.afterRand = { s with randAnswers := rest } := by
  simp only [State.afterRand, h]

theorem State.afterRand_of_no_answer (h : s.randAnswers = []) :
    s.afterRand = { s with randDraws := s.randDraws + 1 } := by
  simp only [State.afterRand, h]

end

/-- A byte masked with k has no bit that is clear in k. -/
theorem and_mask_and_not (b k : Byte) : b &&& k &&& ~~~k = 0#8 := by
  rw [BitVec.and_assoc, BitVec.and_not_self]
  exact BitVec.and_zero

/-- Settles O40: the mask clears the bits whatever the answer, and the source has its next answer fixed or free. -/
theorem rndMasksAnyRandomByte : Obligations.RndMasksAnyRandomByte := by
  intro x k s
  have hread : (s.advance.afterRand.setV x (s.randByte &&& k)).getV x = s.randByte &&& k :=
    State.getV_setV_self _ x _
  refine ⟨_, rfl, ?_, fun b rest hanswer => ?_, fun hfree => ?_, fun r hr => ?_, ?_, ?_, fun a => ?_⟩
  · rw [hread, and_mask_and_not]
  · have hsource : s.advance.afterRand = { s.advance with randAnswers := rest } := State.afterRand_of_answer hanswer
    rw [hread, State.randByte_of_answer hanswer, hsource]
    exact ⟨rfl, rfl, rfl⟩
  · have hsource : s.advance.afterRand = { s.advance with randDraws := s.randDraws + 1 } :=
      State.afterRand_of_no_answer hfree
    rw [hread, State.randByte_of_no_answer hfree, hsource]
    exact ⟨rfl, hfree, rfl⟩
  · rw [State.getV_setV_ne _ _ (List.ne_of_not_mem_cons hr), State.getV_afterRand, State.getV_advance]
  · exact s.advance.afterRand_pc
  · rw [State.afterRand_eq]
    rfl
  · exact congrArg (Memory.read · a) s.advance.afterRand_mem

/-! ## The key wait (R222 to R224) -/

/-- No key is released where every key of the last sample is still pressed. -/
theorem lowestKey_releasedKeys_eq_none {prev now : Keypad}
    (h : ∀ k : Nat, prev.getLsbD k = true → now.getLsbD k = true) : lowestKey (releasedKeys prev now) = none := by
  refine lowestKey_eq_none.2 (BitVec.eq_of_getLsbD_eq fun k _ => ?_)
  rw [getLsbD_releasedKeys]
  simpa using h k

/-- The key a release gives: released, where no lower key is. -/
theorem lowestKey_releasedKeys_eq_some {prev now : Keypad} {key : Nat} (hprev : prev.getLsbD key = true)
    (hnow : now.getLsbD key = false) (hlower : ∀ j < key, prev.getLsbD j = true → now.getLsbD j = true) :
    lowestKey (releasedKeys prev now) = some key := by
  refine lowestKey_eq_some.2 ⟨?_, fun j hj => ?_⟩ <;> rw [getLsbD_releasedKeys]
  · simp [hprev, hnow]
  · simpa using hlower j hj

section
variable {s : State} {x : Nibble} {prev now : Keypad}

/-- A keypad change without a release takes a key wait on with the new sample. -/
theorem State.setKeypad_of_no_release (hs : s.status = .waitKey x prev)
    (h : lowestKey (releasedKeys prev now) = none) :
    s.setKeypad now = { s with keys := now, status := .waitKey x now } := by
  simp only [State.setKeypad, hs, h]

/-- A keypad change with a release completes a key wait. -/
theorem State.setKeypad_of_release {key : Nat} (hs : s.status = .waitKey x prev)
    (h : lowestKey (releasedKeys prev now) = some key) :
    s.setKeypad now = { s with keys := now }.completeWait x key := by
  simp only [State.setKeypad, hs, h]

end

/-- The key's number is what the destination of a completed wait holds. -/
theorem State.toNat_getV_completeWait (s : State) (x : Nibble) {key : Nat} (hkey : key < 16) :
    ((s.completeWait x key).getV x).toNat = key := by
  have hread : (s.completeWait x key).getV x = BitVec.ofNat 8 key := s.getV_setV_self x _
  rw [hread, BitVec.toNat_ofNat, Nat.mod_eq_of_lt (hkey.trans (by decide))]

/-- Settles O45: the keypad change finds the lowest key released, if there is one, and a key number fits a register. -/
theorem keyWaitCompletesOnARelease : Obligations.KeyWaitCompletesOnARelease := by
  intro x prev now rest s hs hacts
  have hstep : step s = .next ({ s with hostActs := rest }.setKeypad now) := step_of_hostActs hacts
  have hwait : { s with hostActs := rest }.status = .waitKey x prev := hs
  refine ⟨fun hheld => ?_, fun key hprev hnow hlower => ?_⟩
  · rw [hstep, State.setKeypad_of_no_release hwait (lowestKey_releasedKeys_eq_none hheld)]
  · rw [State.setKeypad_of_release hwait (lowestKey_releasedKeys_eq_some hprev hnow hlower)] at hstep
    refine ⟨_, hstep, State.toNat_getV_completeWait _ x (BitVec.lt_of_getLsbD hprev), fun r hr => ?_,
      fun _ => rfl, rfl⟩
    exact State.getV_setV_ne s _ (List.ne_of_not_mem_cons hr)

/-- Settles O44: the meaning checks nothing and is a single equation. -/
theorem keyWaitIsEntered : Obligations.KeyWaitIsEntered := fun _ _ => ⟨_, rfl, rfl, rfl, rfl, fun _ => rfl⟩

/-! ## The timers (R216, R226, R228) -/

/-- Settles O42: the read is a register write of the timer's value, and each write replaces one timer. -/
theorem timersAreReadAndWritten : Obligations.TimersAreReadAndWritten := fun _ _ =>
  ⟨exec_of_setV rfl, ⟨_, rfl, rfl, rfl, rfl, fun _ => rfl⟩, ⟨_, rfl, rfl, rfl, rfl, fun _ => rfl⟩⟩

end Sys2Proof.Machine
end

section
/-! PROOFS of the statements on errors, refusals and the host's actions (spec/60_exceptions.md). First what a step
request answers, which causes its errors have, and what a keypad change does to the state. -/

namespace Sys2Proof.Machine

/-! ## A next state, or the refusal of an oversized image (R242, R247, R281) -/

/-- Settles O9: an instruction answers the state with its own error recorded, or its completion. -/
theorem everyInstructionIsExecutable : Obligations.EveryInstructionIsExecutable := by
  intro i s
  rcases exec_cases i s with ⟨e, -, hfault⟩ | ⟨-, hcompletes⟩
  · exact ⟨_, hfault⟩
  · exact ⟨_, hcompletes⟩

theorem construct_of_oversized (p : InitParams) {image : List Byte} (h : 3584 < image.length) (s : State) :
    construct p image s = .refused (.imageTooLarge image.length) :=
  if_neg (by simpa [imageFits_eq] using h)

theorem exists_stepRequest_eq_next (s : State) : ∃ t, stepRequest s = .next t := by
  rcases stepRequest_cases s with ⟨-, i, -, heq⟩ | ⟨-, e, -, heq⟩ | ⟨-, heq⟩
  · obtain ⟨t, hexec⟩ := everyInstructionIsExecutable i s
    exact ⟨t.endStep, by rw [heq, hexec, finish_next]⟩
  · exact ⟨_, heq⟩
  · exact ⟨_, heq⟩

theorem exists_hostAct_eq_next_of_fits {a : HostAction}
    (h : ∀ p image, a = .construct p image → image.length ≤ 3584) (s : State) : ∃ t, hostAct a s = .next t := by
  cases a with
  | step => exact exists_stepRequest_eq_next s
  | tick | setKeypad | readDisplay => exact ⟨_, rfl⟩
  | construct p image => exact ⟨_, construct_of_fits p (h p image rfl) s⟩

/-- Settles O10: of the host's actions Construct alone can be refused, and only by the size of its image. -/
theorem onlyAnOversizedImageIsRefused : Obligations.OnlyAnOversizedImageIsRefused := by
  refine fun s => ⟨fun p image rest hacts hlen => ?_, fun hfits => ?_⟩
  · rw [step_of_hostActs hacts]
    exact construct_of_oversized p hlen _
  · rcases step_cases s with ⟨-, heq⟩ | ⟨a, rest, hacts, heq⟩ <;> rw [heq]
    · exact exists_stepRequest_eq_next s
    · exact exists_hostAct_eq_next_of_fits (fun p image ha => hfits p image rest (ha ▸ hacts)) _

/-! ## The causes of an error (R241, R243) -/

theorem status_eq_faulted_iff_ownError {i : Instr} {s t : State} (hs : s.status = .running) (h : exec i s = .next t)
    (e : Error) : t.status = .faulted e ↔ OwnError i s e := by
  refine ⟨fun he => ((exec_error hs h e).1 he).1, fun he => ?_⟩
  cases (exec_of_ownError he).symm.trans h
  rfl

/-- The error of a requested step of a Running block is the one its fetch answers, or the fetched instruction's own. -/
theorem StepRequested.exists_step_faulted_iff {s s0 : State} (h : StepRequested s s0) (hs : s.status = .running) :
    ∃ t, step s = .next t ∧
      ∀ e, t.status = .faulted e ↔ fetchInstr s = .error e ∨ ∃ i, fetchInstr s = .ok i ∧ OwnError i s e := by
  have hs0 : s0.status = .running := h.status_eq.trans hs
  cases hfetch : fetchInstr s with
  | error e' => exact ⟨_, h.step_of_fetch_error hs0 (h.fetchInstr_eq.trans hfetch), by simp⟩
  | ok i =>
    obtain ⟨t, hexec⟩ := everyInstructionIsExecutable i s0
    refine ⟨t.endStep, by rw [h.step_of_fetch hs0 (h.fetchInstr_eq.trans hfetch), hexec, finish_next], fun e => ?_⟩
    have hown := (status_eq_faulted_iff_ownError hs0 hexec e).trans (h.ownError_iff i e)
    simpa using hown

/-- Settles O12: the causes of an error of the fetch come first, and then the one check of the instruction fetched. -/
theorem errorsHaveExactlyTheListedCauses : Obligations.ErrorsHaveExactlyTheListedCauses := by
  intro s s0 hs hrequest
  simpa only [fetchInstr_eq_error, fetchInstr_eq_ok, or_assoc, and_assoc] using hrequest.exists_step_faulted_iff hs

/-! ## The host's ticks (R258) -/

/-- Settles O46, by induction on the number of ticks: each takes one from both timers. -/
theorem ticksCountTimersDownToZero : Obligations.TicksCountTimersDownToZero := by
  intro k rest
  induction k with
  | zero => rintro s rfl; exact ⟨s, rfl, rfl, rfl, rfl⟩
  | succ k ih =>
    intro s hacts
    have htick : step s = .next { s with hostActs := List.replicate k HostAction.tick ++ rest }.tick :=
      step_of_hostActs hacts
    obtain ⟨t, hrun, hdt, hst, heq⟩ := ih { s with hostActs := List.replicate k HostAction.tick ++ rest }.tick rfl
    refine ⟨t, (run_succ k htick).trans hrun, ?_, ?_, heq⟩
    · rw [hdt, State.tick_dt, toNat_tickTimer, Nat.sub_sub, Nat.add_comm]
    · rw [hst, State.tick_st, toNat_tickTimer, Nat.sub_sub, Nat.add_comm]

/-! ## The host's other actions (R251, R256, R260) -/

theorem State.tick_eq (s : State) : s.tick = { s with dt := tickTimer s.dt, st := tickTimer s.st } := rfl

/-- A keypad change replaces the keypad, and of the rest at most what the completion of a key wait writes. -/
theorem State.setKeypad_eq (s : State) (now : Keypad) :
    s.setKeypad now = { s with v := (s.setKeypad now).v, status := (s.setKeypad now).status, keys := now,
                               stepDones := (s.setKeypad now).stepDones } := by
  cases hs : s.status with
  | running => simp only [State.setKeypad, hs]
  | faulted e => simp only [State.setKeypad, hs]
  | waitKey x prev =>
    cases hkey : lowestKey (releasedKeys prev now) with
    | none => rw [State.setKeypad_of_no_release hs hkey]
    | some key => rw [State.setKeypad_of_release hs hkey]; rfl

/-- Outside a key wait a keypad change does nothing more. -/
theorem State.setKeypad_of_not_waitKey {s : State} (h : ∀ x k0, s.status ≠ .waitKey x k0) (now : Keypad) :
    s.setKeypad now = { s with keys := now } := by
  cases hs : s.status with
  | running => simp only [State.setKeypad, hs]
  | waitKey x prev => exact absurd hs (h x prev)
  | faulted e => rw [State.setKeypad_of_faulted hs, hs]

/-- Settles O49: a tick and a read-out are single equations, and a keypad change is one outside a key wait; in a key
wait it has the frame of its completion. -/
theorem hostActionsDoNotWriteTheBlock : Obligations.HostActionsDoNotWriteTheBlock := by
  intro a rest s hacts ha
  have hstep := step_of_hostActs hacts
  rcases ha with rfl | rfl | ⟨keys, rfl⟩
  · exact ⟨_, hstep, by simp [SameBlock, State.tick_eq]⟩
  · exact ⟨_, hstep, by simp [SameBlock]⟩
  · by_cases hwait : ∀ x k0, s.status ≠ .waitKey x k0
    · have hset := State.setKeypad_of_not_waitKey (s := { s with hostActs := rest }) hwait keys
      exact ⟨_, hstep.trans (congrArg Host.Outcome.next hset), by simp [SameBlock]⟩
    · have hset := State.setKeypad_eq { s with hostActs := rest } keys
      exact ⟨_, hstep.trans (congrArg Host.Outcome.next hset), by simp [hwait]⟩

end Sys2Proof.Machine
end
